-- ==== Sys2Proof/Word.lean ====
section
/-! DEFINITION. The word types of the machine and their plainest conversions (spec/00_scope.md R13, R15, R16). -/

namespace Sys2Proof

/-- A byte of memory, a general register or a timer (R13). -/
abbrev Byte := BitVec 8

/-- A 16-bit value: an instruction word, I, PC or a stack entry (R13). -/
abbrev Word := BitVec 16

/-- A 12-bit immediate address NNN (30_encoding.md R101). -/
abbrev Addr12 := BitVec 12

/-- A 4-bit immediate nibble N (30_encoding.md R101). -/
abbrev Nibble := BitVec 4

/-- A general register's index, 0x0 to 0xF naming V0 to VF (10_state.md R31). -/
abbrev Reg := Fin 16

/-- A key code, 0 to 15 (00_scope.md R8, R13). -/
abbrev Key := Fin 16

/-- The flag register VF (10_state.md R32). -/
abbrev vF : Reg := 15

/-- The register V0 (10_state.md R33). -/
abbrev v0 : Reg := 0

end Sys2Proof
end

