-- ==== Sys2Proof/Syntax.lean ====
section
/-! DEFINITION. The instruction set: one constructor per row of spec/opcode_table.json (30_encoding.md R104), in the
table's order. Operands are the fields of R101 at their own widths, so no operand can be out of its range (R103). -/

namespace Sys2Proof

/-- The 34 instructions of 30_encoding.md R104. -/
inductive Instr where
  /-- 00E0 `CLS` (43_display.md R230). -/
  | cls
  /-- 00EE `RET` (41_control_flow.md R161). -/
  | ret
  /-- 1NNN `JP addr` (R162). -/
  | jp (nnn : Addr12)
  /-- 2NNN `CALL addr` (R163). -/
  | call (nnn : Addr12)
  /-- 3XNN `SE Vx, byte` (R164). -/
  | seByte (x : Reg) (nn : Byte)
  /-- 4XNN `SNE Vx, byte` (R165). -/
  | sneByte (x : Reg) (nn : Byte)
  /-- 5XY0 `SE Vx, Vy` (R166). -/
  | seReg (x y : Reg)
  /-- 6XNN `LD Vx, byte` (42_alu.md R191). -/
  | ldByte (x : Reg) (nn : Byte)
  /-- 7XNN `ADD Vx, byte` (R192). -/
  | addByte (x : Reg) (nn : Byte)
  /-- 8XY0 `LD Vx, Vy` (R193). -/
  | ldReg (x y : Reg)
  /-- 8XY1 `OR Vx, Vy` (R194). -/
  | orReg (x y : Reg)
  /-- 8XY2 `AND Vx, Vy` (R195). -/
  | andReg (x y : Reg)
  /-- 8XY3 `XOR Vx, Vy` (R196). -/
  | xorReg (x y : Reg)
  /-- 8XY4 `ADD Vx, Vy` (R197). -/
  | addReg (x y : Reg)
  /-- 8XY5 `SUB Vx, Vy` (R198). -/
  | subReg (x y : Reg)
  /-- 8XY6 `SHR Vx, Vy` (R199). -/
  | shrReg (x y : Reg)
  /-- 8XY7 `SUBN Vx, Vy` (R200). -/
  | subnReg (x y : Reg)
  /-- 8XYE `SHL Vx, Vy` (R201). -/
  | shlReg (x y : Reg)
  /-- 9XY0 `SNE Vx, Vy` (41_control_flow.md R167). -/
  | sneReg (x y : Reg)
  /-- ANNN `LD I, addr` (44_index_memory.md R260). -/
  | ldI (nnn : Addr12)
  /-- BNNN `JP V0, addr` (41_control_flow.md R168). -/
  | jpV0 (nnn : Addr12)
  /-- CXNN `RND Vx, byte` (42_alu.md R202). -/
  | rnd (x : Reg) (nn : Byte)
  /-- DXYN `DRW Vx, Vy, nibble` (43_display.md R234). -/
  | drw (x y : Reg) (n : Nibble)
  /-- EX9E `SKP Vx` (45_keys_timers.md R290). -/
  | skp (x : Reg)
  /-- EXA1 `SKNP Vx` (R291). -/
  | sknp (x : Reg)
  /-- FX07 `LD Vx, DT` (R293). -/
  | ldVxDt (x : Reg)
  /-- FX0A `LD Vx, K` (R294). -/
  | ldVxK (x : Reg)
  /-- FX15 `LD DT, Vx` (R297). -/
  | ldDtVx (x : Reg)
  /-- FX18 `LD ST, Vx` (R298). -/
  | ldStVx (x : Reg)
  /-- FX1E `ADD I, Vx` (44_index_memory.md R262). -/
  | addI (x : Reg)
  /-- FX29 `LD F, Vx` (R264). -/
  | ldF (x : Reg)
  /-- FX33 `LD B, Vx` (R265). -/
  | ldB (x : Reg)
  /-- FX55 `LD [I], Vx` (R266). -/
  | storeRegs (x : Reg)
  /-- FX65 `LD Vx, [I]` (R267). -/
  | loadRegs (x : Reg)
  deriving DecidableEq, Repr

end Sys2Proof
end

