-- ==== Sys2Proof/WellFormed.lean ====
section
/-! DEFINITION. Which words are instructions and which instructions execute, written from the list of unimplemented
encodings (spec/30_encoding.md R106) and not from the decoder. An operand of `Instr` cannot be out of range by its type,
so an instruction's one check is the one R106 adds: a draw of height 0. -/

namespace Sys2Proof

/-- The word is none of the unimplemented encodings R106 lists, one line per bullet of that list. -/
def wordImplemented (w : Word) : Bool :=
  let op := w.toNat / 0x1000
  let n := w.toNat % 0x10
  let nn := w.toNat % 0x100
  !(op == 0x0 && w.toNat != 0x00E0 && w.toNat != 0x00EE)
  && !(op == 0x5 && n != 0)
  && !(op == 0x8 && [0x8, 0x9, 0xA, 0xB, 0xC, 0xD, 0xF].contains n)
  && !(op == 0x9 && n != 0)
  && !(op == 0xE && !([0x9E, 0xA1].contains nn))
  && !(op == 0xF && !([0x07, 0x0A, 0x15, 0x18, 0x1E, 0x29, 0x33, 0x55, 0x65].contains nn))

/-- The instruction has an effect of its own: all but `DXY0`, which "is decoded but raises UnimplementedInstruction"
(R106, 43_display.md R241). -/
def Instr.wellFormed : Instr → Bool
  | .drw _ _ n => n != 0
  | .cls | .ret | .jp _ | .call _ | .seByte _ _ | .sneByte _ _ | .seReg _ _ | .ldByte _ _ | .addByte _ _ | .ldReg _ _
  | .orReg _ _ | .andReg _ _ | .xorReg _ _ | .addReg _ _ | .subReg _ _ | .shrReg _ _ | .subnReg _ _ | .shlReg _ _
  | .sneReg _ _ | .ldI _ | .jpV0 _ | .rnd _ _ | .skp _ | .sknp _ | .ldVxDt _ | .ldVxK _ | .ldDtVx _ | .ldStVx _
  | .addI _ | .ldF _ | .ldB _ | .storeRegs _ | .loadRegs _ => true

end Sys2Proof
end

