-- ==== Sys2Proof/Decode.lean ====
section
/-! DEFINITION. The decoder, total on every word and every byte list (spec/30_encoding.md R101, R105, R108), then the
encoder (R102, R113), then the rows of the opcode table (R104). -/

namespace Sys2Proof

/-- Why no instruction is read. -/
inductive DecodeError where
  /-- The word is one of the unimplemented encodings (R106). -/
  | unimplemented (w : Word)
  /-- Fewer than the two bytes every instruction has (R100). -/
  | truncated
  deriving DecidableEq, Repr

/-- The fields every word has, whatever the instruction (R101). -/
structure Fields where
  op  : Nibble
  x   : Reg
  y   : Reg
  n   : Nibble
  nn  : Byte
  nnn : Addr12
  deriving DecidableEq, Repr

/-- Field extraction: "a pure, stateless transformation — no side effects, no failure modes" (R101, R108). -/
def decodeFields (w : Word) : Fields where
  op  := w.extractLsb' 12 4
  x   := (w.extractLsb' 8 4).toFin
  y   := (w.extractLsb' 4 4).toFin
  n   := w.extractLsb' 0 4
  nn  := w.extractLsb' 0 8
  nnn := w.extractLsb' 0 12

/-- Class 0x8: N selects the ALU operation (R105). -/
def decodeAlu (f : Fields) : Option Instr :=
  match f.n with
  | 0x0#4 => some (.ldReg f.x f.y)
  | 0x1#4 => some (.orReg f.x f.y)
  | 0x2#4 => some (.andReg f.x f.y)
  | 0x3#4 => some (.xorReg f.x f.y)
  | 0x4#4 => some (.addReg f.x f.y)
  | 0x5#4 => some (.subReg f.x f.y)
  | 0x6#4 => some (.shrReg f.x f.y)
  | 0x7#4 => some (.subnReg f.x f.y)
  | 0xE#4 => some (.shlReg f.x f.y)
  | _ => none

/-- Class 0xF: NN selects the operation (R105). -/
def decodeMisc (f : Fields) : Option Instr :=
  match f.nn with
  | 0x07#8 => some (.ldVxDt f.x)
  | 0x0A#8 => some (.ldVxK f.x)
  | 0x15#8 => some (.ldDtVx f.x)
  | 0x18#8 => some (.ldStVx f.x)
  | 0x1E#8 => some (.addI f.x)
  | 0x29#8 => some (.ldF f.x)
  | 0x33#8 => some (.ldB f.x)
  | 0x55#8 => some (.storeRegs f.x)
  | 0x65#8 => some (.loadRegs f.x)
  | _ => none

/-- Selection by class (R105). Class 0x0 is tested on the whole word, which its NNN field determines. -/
def selectInstr (f : Fields) : Option Instr :=
  match f.op with
  | 0x0#4 => if f.nnn = 0x0E0 then some .cls else if f.nnn = 0x0EE then some .ret else none
  | 0x1#4 => some (.jp f.nnn)
  | 0x2#4 => some (.call f.nnn)
  | 0x3#4 => some (.seByte f.x f.nn)
  | 0x4#4 => some (.sneByte f.x f.nn)
  | 0x5#4 => if f.n = 0 then some (.seReg f.x f.y) else none
  | 0x6#4 => some (.ldByte f.x f.nn)
  | 0x7#4 => some (.addByte f.x f.nn)
  | 0x8#4 => decodeAlu f
  | 0x9#4 => if f.n = 0 then some (.sneReg f.x f.y) else none
  | 0xA#4 => some (.ldI f.nnn)
  | 0xB#4 => some (.jpV0 f.nnn)
  | 0xC#4 => some (.rnd f.x f.nn)
  | 0xD#4 => some (.drw f.x f.y f.n)
  | 0xE#4 => if f.nn = 0x9E then some (.skp f.x) else if f.nn = 0xA1 then some (.sknp f.x) else none
  | 0xF#4 => decodeMisc f
  | _ => none

/-- The instruction a word stands for, or the word rejected by name (R105, R106). -/
def decodeWord (w : Word) : Except DecodeError Instr :=
  match selectInstr (decodeFields w) with
  | some i => .ok i
  | none => .error (.unimplemented w)

/-- The word of the two bytes at an address and the one after it, the lower address first: big-endian
(20_memory.md R71). -/
def wordOfBytes (hi lo : Byte) : Word := hi.setWidth 16 <<< 8 ||| lo.setWidth 16

/-- The byte at the lower address of a word (R71). -/
def highByte (w : Word) : Byte := w.extractLsb' 8 8

/-- The byte at the higher address of a word (R71). -/
def lowByte (w : Word) : Byte := w.extractLsb' 0 8

/-- Reads one instruction from the bytes in memory order and returns it with the rest (R100: always two bytes). -/
def decodeBytes : List Byte → Except DecodeError (Instr × List Byte)
  | hi :: lo :: rest =>
    match decodeWord (wordOfBytes hi lo) with
    | .ok i => .ok (i, rest)
    | .error e => .error e
  | _ => .error .truncated

/-- A register index as the 4-bit field that names it. -/
def regField (r : Reg) : Nibble := .ofFin r

/-- Format `A` (R102): op in bits 15:12, NNN in bits 11:0. -/
def encodeA (op : Nibble) (nnn : Addr12) : Word := op.setWidth 16 <<< 12 ||| nnn.setWidth 16

/-- Formats `RB` and `RS` (R102): op in bits 15:12, X in bits 11:8, a byte in bits 7:0. -/
def encodeRB (op : Nibble) (x : Reg) (nn : Byte) : Word :=
  op.setWidth 16 <<< 12 ||| (regField x).setWidth 16 <<< 8 ||| nn.setWidth 16

/-- Formats `RR` and `RRN` (R102): op in bits 15:12, X in bits 11:8, Y in bits 7:4, a nibble in bits 3:0. -/
def encodeRR (op : Nibble) (x y : Reg) (n : Nibble) : Word :=
  op.setWidth 16 <<< 12 ||| (regField x).setWidth 16 <<< 8 ||| (regField y).setWidth 16 <<< 4 ||| n.setWidth 16

/-- The word of an instruction: its pattern of R104 with the operands in the fields of R101 (R113). -/
def encode : Instr → Word
  | .cls => 0x00E0
  | .ret => 0x00EE
  | .jp nnn => encodeA 0x1 nnn
  | .call nnn => encodeA 0x2 nnn
  | .seByte x nn => encodeRB 0x3 x nn
  | .sneByte x nn => encodeRB 0x4 x nn
  | .seReg x y => encodeRR 0x5 x y 0x0
  | .ldByte x nn => encodeRB 0x6 x nn
  | .addByte x nn => encodeRB 0x7 x nn
  | .ldReg x y => encodeRR 0x8 x y 0x0
  | .orReg x y => encodeRR 0x8 x y 0x1
  | .andReg x y => encodeRR 0x8 x y 0x2
  | .xorReg x y => encodeRR 0x8 x y 0x3
  | .addReg x y => encodeRR 0x8 x y 0x4
  | .subReg x y => encodeRR 0x8 x y 0x5
  | .shrReg x y => encodeRR 0x8 x y 0x6
  | .subnReg x y => encodeRR 0x8 x y 0x7
  | .shlReg x y => encodeRR 0x8 x y 0xE
  | .sneReg x y => encodeRR 0x9 x y 0x0
  | .ldI nnn => encodeA 0xA nnn
  | .jpV0 nnn => encodeA 0xB nnn
  | .rnd x nn => encodeRB 0xC x nn
  | .drw x y n => encodeRR 0xD x y n
  | .skp x => encodeRB 0xE x 0x9E
  | .sknp x => encodeRB 0xE x 0xA1
  | .ldVxDt x => encodeRB 0xF x 0x07
  | .ldVxK x => encodeRB 0xF x 0x0A
  | .ldDtVx x => encodeRB 0xF x 0x15
  | .ldStVx x => encodeRB 0xF x 0x18
  | .addI x => encodeRB 0xF x 0x1E
  | .ldF x => encodeRB 0xF x 0x29
  | .ldB x => encodeRB 0xF x 0x33
  | .storeRegs x => encodeRB 0xF x 0x55
  | .loadRegs x => encodeRB 0xF x 0x65

/-- The two bytes of an instruction in memory order (R71, R113). -/
def encodeBytes (i : Instr) : List Byte := [highByte (encode i), lowByte (encode i)]

/-- The `match` and `mask` columns of spec/opcode_table.json, in the table's order: a word is of a row iff its bits under
the mask are the match. -/
def opcodeRows : List (Word × Word) :=
  [(0x00E0, 0xFFFF), (0x00EE, 0xFFFF), (0x1000, 0xF000), (0x2000, 0xF000), (0x3000, 0xF000), (0x4000, 0xF000),
   (0x5000, 0xF00F), (0x6000, 0xF000), (0x7000, 0xF000), (0x8000, 0xF00F), (0x8001, 0xF00F), (0x8002, 0xF00F)]
  ++ [(0x8003, 0xF00F), (0x8004, 0xF00F), (0x8005, 0xF00F), (0x8006, 0xF00F), (0x8007, 0xF00F), (0x800E, 0xF00F),
   (0x9000, 0xF00F), (0xA000, 0xF000), (0xB000, 0xF000), (0xC000, 0xF000), (0xD000, 0xF000), (0xE09E, 0xF0FF)]
  ++ [(0xE0A1, 0xF0FF), (0xF007, 0xF0FF), (0xF00A, 0xF0FF), (0xF015, 0xF0FF), (0xF018, 0xF0FF), (0xF01E, 0xF0FF),
   (0xF029, 0xF0FF), (0xF033, 0xF0FF), (0xF055, 0xF0FF), (0xF065, 0xF0FF)]

/-- The word is of the row. -/
def matchesRow (w : Word) (row : Word × Word) : Bool := w &&& row.2 == row.1

/-- The place of an instruction's row in `opcodeRows`. -/
def Instr.rowIndex : Instr → Nat
  | .cls => 0
  | .ret => 1
  | .jp _ => 2
  | .call _ => 3
  | .seByte _ _ => 4
  | .sneByte _ _ => 5
  | .seReg _ _ => 6
  | .ldByte _ _ => 7
  | .addByte _ _ => 8
  | .ldReg _ _ => 9
  | .orReg _ _ => 10
  | .andReg _ _ => 11
  | .xorReg _ _ => 12
  | .addReg _ _ => 13
  | .subReg _ _ => 14
  | .shrReg _ _ => 15
  | .subnReg _ _ => 16
  | .shlReg _ _ => 17
  | .sneReg _ _ => 18
  | .ldI _ => 19
  | .jpV0 _ => 20
  | .rnd _ _ => 21
  | .drw _ _ _ => 22
  | .skp _ => 23
  | .sknp _ => 24
  | .ldVxDt _ => 25
  | .ldVxK _ => 26
  | .ldDtVx _ => 27
  | .ldStVx _ => 28
  | .addI _ => 29
  | .ldF _ => 30
  | .ldB _ => 31
  | .storeRegs _ => 32
  | .loadRegs _ => 33

/-- The instruction this decoder reads from an instruction whose bits are `w`, bit 0 the least significant bit of the
word; bits at or above `nbits`, and above the word's sixteen, are not the instruction's. -/
def decodeTableWord (nbits w : Nat) : Option Instr :=
  let word : Word := .ofNat 16 (w % 2 ^ nbits)
  match decodeBytes [highByte word, lowByte word] with
  | .ok (i, _) => some i
  | .error _ => none

end Sys2Proof
end

