-- ==== Sys2Proof/Config.lean ====
section
/-! DEFINITION. The configuration record of spec/00_scope.md R12 to R14, and the free values of R10 and R21.
A parameter the spec gives a value for is a definition; one it leaves OPEN, and every free value, is an opaque constant
with no body, so that nothing can be proved of its value. -/

namespace Sys2Proof

/-- `MEM_SIZE` (R12, R14): 4096 bytes. -/
abbrev Config.memSize : Nat := 4096

/-- `PROG_BASE` (R12). -/
abbrev Config.progBase : Nat := 0x200

/-- `FONT_BASE` (R12). -/
abbrev Config.fontBase : Nat := 0x50

/-- `SCREEN_W` (R12; from general knowledge, the spec says). -/
abbrev Config.screenW : Nat := 64

/-- `SCREEN_H` (R12; from general knowledge, the spec says). -/
abbrev Config.screenH : Nat := 32

/-- `STACK_DEPTH` (R12; from general knowledge, the spec says). -/
abbrev Config.stackDepth : Nat := 16

/-- The two jump-with-offset conventions (R12, 41_control_flow.md R168). -/
inductive JumpOffsetMode where
  /-- BNNN adds V0. -/
  | v0
  /-- BNNN adds V[X] with X = NNN[11:8]. -/
  | vx
  deriving DecidableEq, Repr

/-- `JUMP_OFFSET_MODE`: `V0` for this hardware (R12, R168). See notes/assumptions/13.md. -/
def Config.jumpOffsetMode : JumpOffsetMode := .v0

/-- `SHIFT_USES_VY`: OPEN, no default in the source (R12). See notes/assumptions/6.md. -/
opaque Config.shiftUsesVy : Bool

/-- `INDEX_AUTOINC`: OPEN, no default in the source (R12). See notes/assumptions/6.md. -/
opaque Config.indexAutoInc : Bool

/-- `CLOCK_HZ`, a positive rate: OPEN; no rule reads it (R12, 70_reset_and_hazards.md R391). DESIGN CHOICE: the rate is a whole
number, which the spec does not say. See notes/assumptions/7.md. -/
opaque Config.clockHz : PNat

/-- `TIMER_HZ`, a positive rate: OPEN; no rule reads it (R12, 70_reset_and_hazards.md R391). DESIGN CHOICE: the rate is a whole
number, which the spec does not say. See notes/assumptions/7.md. -/
opaque Config.timerHz : PNat

/-- `FONT` (44_index_memory.md R263): 16 glyphs of 5 bytes, glyph k first at 5k, top row first. -/
def Config.font : List Byte :=
  [0xF0, 0x90, 0x90, 0x90, 0xF0,  0x20, 0x60, 0x20, 0x20, 0x70,
   0xF0, 0x10, 0xF0, 0x80, 0xF0,  0xF0, 0x10, 0xF0, 0x10, 0xF0]
  ++ [0x90, 0x90, 0xF0, 0x10, 0x10,  0xF0, 0x80, 0xF0, 0x10, 0xF0,
   0xF0, 0x80, 0xF0, 0x90, 0xF0,  0xF0, 0x10, 0x20, 0x40, 0x40]
  ++ [0xF0, 0x90, 0xF0, 0x90, 0xF0,  0xF0, 0x90, 0xF0, 0x10, 0xF0,
   0xF0, 0x90, 0xF0, 0x90, 0x90,  0xE0, 0x90, 0xE0, 0x90, 0xE0]
  ++ [0xF0, 0x80, 0x80, 0x80, 0xF0,  0xE0, 0x90, 0x90, 0x90, 0xE0,
   0xF0, 0x80, 0xF0, 0x80, 0xF0,  0xF0, 0x80, 0xF0, 0x80, 0x80]

/-- The random byte of the n-th draw: "a value under no law" (R10, 42_alu.md R202). A free value: no body.
See notes/assumptions/5.md. -/
opaque Config.freeByte : Nat → Byte

/-- What decides the n-th choice among several pressed keys (R21, 45_keys_timers.md R295). A free value: no body.
See notes/assumptions/5.md. -/
opaque Config.freeChoice : Nat → Nat

end Sys2Proof
end

