-- ==== Sys2Proof/Machine/State.lean ====
section
/-! DEFINITION. The state of the block (spec/10_state.md R30, R53), the reasons a step can stop, and the state after reset
(70_reset_and_hazards.md R370). State is plain data. Its first twelve fields are the spec's own record; the last four are
the model's: the block's output and input channels, who steps next, and the free-value counter. -/

namespace Sys2Proof.Machine

/-- The six fault causes (60_exceptions.md R321). -/
inductive FaultCause where
  /-- Code 1: the fetched word is an unimplemented encoding, or DXY0. -/
  | unimplementedInstruction
  /-- Code 2: a fetch at PC with PC + 1 above the last address. -/
  | pcOutOfBounds
  /-- Code 3: an access through I beyond the last address. -/
  | memOutOfBounds
  /-- Code 4: CALL with a full stack. -/
  | stackOverflow
  /-- Code 5: RET with an empty stack. -/
  | stackUnderflow
  /-- Code 6: EX9E or EXA1 with V[X] above 15. -/
  | keyOutOfRange
  deriving DecidableEq, Repr

/-- The fault record (60_exceptions.md R322); its 4-bit `code` field is the cause's number, `FaultCause.code`. -/
structure FaultRecord where
  cause : FaultCause
  /-- The address the faulting instruction was fetched from, or the PC that could not be fetched. -/
  pc    : Word
  /-- The instruction word; none for `PcOutOfBounds`. -/
  word  : Option Word
  /-- The out-of-range address or the key value; otherwise none. -/
  info  : Option (BitVec 17)
  deriving DecidableEq, Repr

/-- The status of the core (10_state.md R49). -/
inductive RunStatus where
  | running
  | haltedFault
  | haltedQuit
  deriving DecidableEq, Repr

/-- One key transition of a poll (00_scope.md R8). -/
inductive KeyEvent where
  | keyDown (k : Key)
  | keyUp (k : Key)
  deriving DecidableEq, Repr

/-- What one poll of the input source returns: the key events in order and the quit request (00_scope.md R8). -/
structure Poll where
  events : List KeyEvent
  quit   : Bool
  deriving DecidableEq, Repr

/-- The agents that step (60_exceptions.md R360). -/
inductive Agent where
  | core
  | timer
  deriving DecidableEq, Repr

/-- The display bitmap (10_state.md R44), by row and then by column: `fb[y][x]` is the spec's fb[x][y]. -/
abbrev Bitmap := Vector (Vector Bool Config.screenW) Config.screenH

/-- Memory as the bytes that differ from what an unlisted address reads as; its canonical form is `Memory.wf`
(Machine/Ops.lean). -/
abbrev Memory := List Host.Cell

/-- The state of the machine. -/
structure State where
  /-- The 4096 bytes of memory (R45). -/
  mem : Memory
  /-- V0 to VF (R31); VF is also the flag register (R32). -/
  v : Vector Byte 16
  /-- The index register I (R36). -/
  i : Word
  /-- The program counter (R38). -/
  pc : Word
  /-- The call stack, its top at the end (R40). -/
  stack : List Word
  /-- The delay timer DT (R42). -/
  dt : Byte
  /-- The sound timer ST (R42). -/
  st : Byte
  /-- The display bitmap (R44). -/
  fb : Bitmap
  /-- The held flags (R46). -/
  held : Vector Bool 16
  /-- The pressed-this-poll flags (R46). -/
  pressed : Vector Bool 16
  /-- The fault record, none while no fault has been raised (R48). -/
  fault : Option FaultRecord
  /-- Whether the core runs (R49). -/
  run : RunStatus
  /-- Output channel, the model's own field: the `Present` events emitted so far, oldest first (00_scope.md R9,
  43_display.md R231). See notes/assumptions/4.md. -/
  presented : List Bitmap
  /-- Input channel, the model's own field: the poll results to come, next first (00_scope.md R8). See
  notes/assumptions/3.md. -/
  polls : List Poll
  /-- The model's own field: the agents that step, next first (60_exceptions.md R360). See notes/assumptions/2.md. -/
  schedule : List Agent
  /-- The model's own field: how many free values have been taken (00_scope.md R10, R21). See
  notes/assumptions/5.md. -/
  draws : Nat
  deriving DecidableEq, Repr

/-- Why a step stops with a fault of the machine. The block's own faults (60_exceptions.md R321) are no stops: they are
taken, and the next state holds their record. -/
inductive Fault where
  /-- Raised by `step` alone, when it is the core's turn and the core is halted: "the core takes no further step"
  (10_state.md R49). Safe: there is no such step. -/
  | coreHalted
  deriving DecidableEq, Repr

/-- Why a step is refused. -/
inductive Refusal where
  /-- Raised by an arm of `exec` whose instruction has no meaning yet; no arm raises it. Safe: the machine stops. -/
  | notModelled (mnemonic : String)
  deriving DecidableEq, Repr

/-- The state right after reset with the empty image (10_state.md R53, 70_reset_and_hazards.md R370, R372). Memory lists
nothing: it reads as its reset contents. The model's own fields hold the values of notes/assumptions/2.md to 5.md. -/
def State.reset : State where
  mem := []
  v := Vector.replicate 16 0
  i := 0
  pc := .ofNat 16 Config.progBase
  stack := []
  dt := 0
  st := 0
  fb := Vector.replicate Config.screenH (Vector.replicate Config.screenW false)
  held := Vector.replicate 16 false
  pressed := Vector.replicate 16 false
  fault := none
  run := .running
  presented := []
  polls := []
  schedule := []
  draws := 0

end Sys2Proof.Machine
end

