-- ==== Sys2Proof/Machine/Ops.lean ====
section
/-! DEFINITION. The named operations over memory, registers, stack, bitmap and channels, taking a fault
(spec/60_exceptions.md R324), and the timer engine's tick (R345). -/

namespace Sys2Proof.Machine

/-- The cause's code (60_exceptions.md R321); code 0 means no fault. -/
def FaultCause.code : FaultCause → BitVec 4
  | .unimplementedInstruction => 1
  | .pcOutOfBounds => 2
  | .memOutOfBounds => 3
  | .stackOverflow => 4
  | .stackUnderflow => 5
  | .keyOutOfRange => 6

/-- What an unlisted address reads as: the contents of memory at reset before an image is placed, the font at
`FONT_BASE` and zero elsewhere (70_reset_and_hazards.md R371). -/
def Memory.unlisted (a : Nat) : Byte :=
  if Config.fontBase ≤ a then Config.font.getD (a - Config.fontBase) 0 else 0

/-- The address is strictly below every listed address. -/
def Memory.below (a : Nat) : Memory → Bool
  | [] => true
  | c :: _ => a < c.1

/-- The canonical form: addresses strictly rising and inside memory, and no entry equal to what its address would read
as unlisted. -/
def Memory.wf : Memory → Bool
  | [] => true
  | c :: m => c.1 < Config.memSize && c.2 != Memory.unlisted c.1 && Memory.below c.1 m && Memory.wf m

/-- `MemRead(a, 1)` (00_scope.md R18). Callers have checked that the address is in memory. -/
def Memory.read : Memory → Nat → Byte
  | [], a => Memory.unlisted a
  | c :: m, a => if c.1 = a then c.2 else Memory.read m a

/-- Puts a cell at its place in a list that does not hold its address. -/
def Memory.insert (c : Host.Cell) : Memory → Memory
  | [] => [c]
  | d :: m => if c.1 < d.1 then c :: d :: m else d :: Memory.insert c m

/-- `MemWrite(a, 1, b)` (00_scope.md R18), keeping the canonical form. Callers have checked that the address is in
memory; outside it nothing is written (notes/assumptions/12.md). -/
def Memory.write (m : Memory) (a : Nat) (b : Byte) : Memory :=
  if a < Config.memSize then
    if b = Memory.unlisted a then m.filter (fun c => c.1 != a)
    else Memory.insert (a, b) (m.filter (fun c => c.1 != a))
  else m

/-- The `n` bytes from an address on, in address order. -/
def Memory.readBytes (m : Memory) (a : Nat) : Nat → List Byte
  | 0 => []
  | n + 1 => Memory.read m a :: Memory.readBytes m (a + 1) n

/-- Writes bytes from an address on, in address order. -/
def Memory.writeBytes (m : Memory) (a : Nat) : List Byte → Memory
  | [] => m
  | b :: bs => Memory.writeBytes (Memory.write m a b) (a + 1) bs

/-- The pixel in column x, row y (00_scope.md R17); false outside the bitmap. -/
def Bitmap.pixel (fb : Bitmap) (x y : Nat) : Bool :=
  if h : x < Config.screenW ∧ y < Config.screenH then (fb[y]'h.2)[x]'h.1 else false

/-- Flips the pixel in column x, row y; nothing outside the bitmap. -/
def Bitmap.flip (fb : Bitmap) (x y : Nat) : Bitmap :=
  if h : x < Config.screenW ∧ y < Config.screenH then
    fb.set y ((fb[y]'h.2).set x (!(fb[y]'h.2)[x]'h.1) h.1) h.2
  else fb

/-- The bitmap with every pixel 0. -/
def Bitmap.clear : Bitmap := Vector.replicate Config.screenH (Vector.replicate Config.screenW false)

/-- `V[r]` (00_scope.md R17). -/
def State.reg (s : State) (r : Reg) : Byte := s.v[r.val]'r.isLt

/-- `V[r] <- b` (00_scope.md R17). -/
def State.setReg (s : State) (r : Reg) (b : Byte) : State := { s with v := s.v.set r.val b r.isLt }

/-- `I <- a` (10_state.md R36). -/
def State.setI (s : State) (a : Word) : State := { s with i := a }

/-- `PC <- a` (10_state.md R38). -/
def State.setPc (s : State) (a : Word) : State := { s with pc := a }

/-- PC plus 2: the pre-increment (40_cycle.md R134), and a skip's extra 2 (41_control_flow.md R160). -/
def State.advance (s : State) : State := { s with pc := s.pc + 2 }

/-- `DT <- b` (45_keys_timers.md R297). -/
def State.setDt (s : State) (b : Byte) : State := { s with dt := b }

/-- `ST <- b` (45_keys_timers.md R298). -/
def State.setSt (s : State) (b : Byte) : State := { s with st := b }

/-- Replaces memory. -/
def State.setMem (s : State) (m : Memory) : State := { s with mem := m }

/-- Replaces the call stack (10_state.md R40). -/
def State.setStack (s : State) (l : List Word) : State := { s with stack := l }

/-- Replaces the bitmap and emits `Present` of it (43_display.md R231). -/
def State.present (s : State) (fb : Bitmap) : State := { s with fb := fb, presented := s.presented ++ [fb] }

/-- Marks one free value as taken (00_scope.md R21). -/
def State.nextDraw (s : State) : State := { s with draws := s.draws + 1 }

/-- Taking a fault (60_exceptions.md R324). `s` is the state before any write of the instruction, so PC is still pc0 and
the pre-increment is undone: the record is kept, the core halts, and nothing else changes. -/
def State.raise (s : State) (cause : FaultCause) (word : Option Word) (info : Option (BitVec 17)) : State :=
  { s with fault := some { cause := cause, pc := s.pc, word := word, info := info }, run := .haltedFault }

/-- The bounds check before the accesses through I (20_memory.md R75, 44_index_memory.md R261): the next state is `done`
if the highest address touched is in memory, else the fault, with nothing of the instruction done. -/
def State.accessing (s : State) (i : Instr) (last : Nat) (done : State) : State :=
  if last > Config.memSize - 1 then s.raise .memOutOfBounds (some (encode i)) (some (.ofNat 17 last)) else done

/-- One tick of the timer engine (60_exceptions.md R345): each counter on its own value, never below 0. -/
def State.tick (s : State) : State :=
  { s with
    dt := if s.dt.toNat > 0 then s.dt - 1 else s.dt
    st := if s.st.toNat > 0 then s.st - 1 else s.st }

end Sys2Proof.Machine
end

