-- ==== Sys2Proof/Machine/Cycle.lean ====
section
/-! DEFINITION. The parts of one iteration that every instruction shares (spec/40_cycle.md): whose turn it is, the poll and
its keypad update (10_state.md R47), and the fetch (R132). -/

namespace Sys2Proof.Machine

/-- The agent whose turn it is; the core where no turn is listed (notes/assumptions/2.md). -/
def State.turn (s : State) : Agent := s.schedule.headD .core

/-- The state once that turn is taken. -/
def State.takeTurn (s : State) : State := { s with schedule := s.schedule.tail }

/-- What this iteration's poll returns; no event and no quit where none is listed (notes/assumptions/3.md). -/
def State.nextPoll (s : State) : Poll := s.polls.headD { events := [], quit := false }

/-- The held flags after one key event (10_state.md R47). -/
def heldAfter (held : Vector Bool 16) : KeyEvent → Vector Bool 16
  | .keyDown k => held.set k.val true k.isLt
  | .keyUp k => held.set k.val false k.isLt

/-- The pressed flags after one key event (10_state.md R47). -/
def pressedAfter (pressed : Vector Bool 16) : KeyEvent → Vector Bool 16
  | .keyDown k => pressed.set k.val true k.isLt
  | .keyUp _ => pressed

/-- The poll of an iteration: its result is taken from the input, the pressed flags are cleared, and the events are
applied in order (10_state.md R47, 40_cycle.md R130). -/
def State.polled (s : State) : State :=
  { s with
    polls := s.polls.tail
    held := s.nextPoll.events.foldl heldAfter s.held
    pressed := s.nextPoll.events.foldl pressedAfter (Vector.replicate 16 false) }

/-- The core halts on a quit request (40_cycle.md R131). -/
def State.quitCore (s : State) : State := { s with run := .haltedQuit }

/-- The instruction word at PC, high byte first, none where its second byte lies outside memory (40_cycle.md R132). -/
def State.fetch (s : State) : Option Word :=
  if s.pc.toNat + 1 > Config.memSize - 1 then none
  else some (wordOfBytes (Memory.read s.mem s.pc.toNat) (Memory.read s.mem (s.pc.toNat + 1)))

/-- Places an instruction word at PC in memory's byte order (20_memory.md R71). -/
def State.placeWord (s : State) (w : Word) : State :=
  { s with mem := Memory.writeBytes s.mem s.pc.toNat [highByte w, lowByte w] }

/-- Makes the next step the iteration of a running core whose poll brings no quit; nothing changes in a state where it is
already. -/
def State.readyCore (s : State) : State :=
  { s with
    run := .running
    fault := none
    schedule := if s.turn = .core then s.schedule else .core :: s.schedule
    polls := if s.nextPoll.quit then { events := [], quit := false } :: s.polls else s.polls }

end Sys2Proof.Machine
end

