-- ==== Sys2Proof/Machine/Flags.lean ====
section
/-! DEFINITION. The results and flag values of the arithmetic instructions (spec/42_alu.md R190, 44_index_memory.md R262):
computed exactly on naturals or integers, then narrowed. -/

namespace Sys2Proof.Machine

/-- What VF is written with: 1 or 0 (42_alu.md R190). -/
def flagByte (b : Bool) : Byte := if b then 1 else 0

/-- (a + b) mod 256 (R190). -/
def sumByte (a b : Byte) : Byte := .ofNat 8 (a.toNat + b.toNat)

/-- The exact sum exceeds 255 (R190). -/
def carry (a b : Byte) : Bool := a.toNat + b.toNat > 255

/-- (a - b) mod 256, the difference taken on integers (R190). -/
def differenceByte (a b : Byte) : Byte := .ofInt 8 (a.toNat - b.toNat)

/-- The exact difference a - b is not negative (R190). -/
def noBorrow (a b : Byte) : Bool := a.toNat ≥ b.toNat

/-- src >> 1 (R190). -/
def shiftedRight (src : Byte) : Byte := src >>> 1

/-- The bit a right shift moves out: src[0] (R190). -/
def outOfRight (src : Byte) : Bool := src.getLsbD 0

/-- (src << 1) mod 256 (R190). -/
def shiftedLeft (src : Byte) : Byte := src <<< 1

/-- The bit a left shift moves out: src[7] (R190). -/
def outOfLeft (src : Byte) : Bool := src.getLsbD 7

/-- (i + b) mod 65536 (44_index_memory.md R262). -/
def indexSum (i : Word) (b : Byte) : Word := .ofNat 16 (i.toNat + b.toNat)

/-- The exact sum exceeds 16 bits (44_index_memory.md R262). -/
def indexOverflow (i : Word) (b : Byte) : Bool := i.toNat + b.toNat > 0xFFFF

end Sys2Proof.Machine
end

