-- ==== Sys2Proof/Machine/Operands.lean ====
section
/-! DEFINITION. The operand forms: what an instruction's operands denote in a state (spec/30_encoding.md R103 and the
instruction rules). Every register is read from the state the instruction starts in (00_scope.md R20). -/

namespace Sys2Proof.Machine

/-- An address immediate, zero-extended (30_encoding.md R103). -/
def addrWord (nnn : Addr12) : Word := nnn.setWidth 16

/-- The register named by an address's top nibble (41_control_flow.md R168). -/
def topNibble (nnn : Addr12) : Reg := (nnn.extractLsb' 8 4).toFin

/-- The target of jump with offset (41_control_flow.md R168). -/
def State.jumpOffsetTarget (s : State) (mode : JumpOffsetMode) (nnn : Addr12) : Word :=
  match mode with
  | .v0 => addrWord nnn + (s.reg v0).setWidth 16
  | .vx => addrWord nnn + (s.reg (topNibble nnn)).setWidth 16

/-- The value a shift works on, by the shift source quirk (42_alu.md R199). -/
def State.shiftSource (s : State) (usesVy : Bool) (x y : Reg) : Byte := if usesVy then s.reg y else s.reg x

/-- The address of the font glyph for a value's low nibble (44_index_memory.md R264). -/
def glyphAddress (b : Byte) : Word := .ofNat 16 (Config.fontBase + 5 * (b.toNat % 16))

/-- The three decimal digits of a byte, most significant first (44_index_memory.md R265). -/
def bcdDigits (b : Byte) : List Byte :=
  [.ofNat 8 (b.toNat / 100), .ofNat 8 (b.toNat / 10 % 10), .ofNat 8 (b.toNat % 10)]

/-- V0 to VX in order (44_index_memory.md R266). -/
def State.regsUpTo (s : State) (x : Reg) : List Byte := s.v.toList.take (x.val + 1)

/-- Loads V0 to VX from memory at I (44_index_memory.md R267). -/
def State.loadRegsFrom (s : State) (x : Reg) : State :=
  { s with v := Vector.ofFn fun r : Reg => if r ≤ x then Memory.read s.mem (s.i.toNat + r.val) else s.reg r }

/-- I after a bulk operation, by the index auto-increment quirk (44_index_memory.md R268). -/
def State.indexAfterBulk (s : State) (autoInc : Bool) (x : Reg) : Word :=
  if autoInc then .ofNat 16 (s.i.toNat + x.val + 1) else s.i

/-- The sprite bytes of a draw (43_display.md R232). -/
def State.spriteBytes (s : State) (n : Nibble) : List Byte := Memory.readBytes s.mem s.i.toNat n.toNat

/-- The column of a sprite's top-left corner (43_display.md R233). -/
def State.startColumn (s : State) (x : Reg) : Nat := (s.reg x).toNat % Config.screenW

/-- The row of a sprite's top-left corner (43_display.md R233). -/
def State.startRow (s : State) (y : Reg) : Nat := (s.reg y).toNat % Config.screenH

/-- The keys pressed in this iteration's poll, lowest first (45_keys_timers.md R294). -/
def State.pressedKeys (s : State) : List Key := (List.finRange 16).filter fun k => s.pressed[k.val]'k.isLt

/-- The key a free choice takes among `k` and `ks` (45_keys_timers.md R295): any of them, by the choice; where there is
one, that one. -/
def chosenKey (choice : Nat) (k : Key) (ks : List Key) : Key :=
  match ks with
  | [] => k
  | _ :: _ => (k :: ks).getD (choice % (ks.length + 1)) k

/-- The key flag for a register's value, none for a value above 15 (45_keys_timers.md R292). -/
def State.heldKey (s : State) (b : Byte) : Option Bool :=
  if h : b.toNat < 16 then some (s.held[b.toNat]'h) else none

end Sys2Proof.Machine
end

