-- ==== Sys2Proof/Machine/Alu.lean ====
section
/-! DEFINITION. Register loads and the ALU (spec/42_alu.md). Each meaning takes the state with PC = pc0 and makes the
pre-increment itself (40_cycle.md R134). -/

namespace Sys2Proof.Machine

/-- An instruction that only writes V[x] (R191 to R196). -/
def State.writeResult (s : State) (x : Reg) (b : Byte) : State := s.advance.setReg x b

/-- An instruction that writes V[x] and then VF, so that with x = F the flag is what VF holds (R190). -/
def State.writeFlagged (s : State) (x : Reg) (b : Byte) (flag : Bool) : State :=
  (s.writeResult x b).setReg vF (flagByte flag)

/-- 6XNN `LD Vx, byte` (R191). -/
def execLdByte (x : Reg) (nn : Byte) (s : State) : Host.Outcome State Fault Refusal := .next (s.writeResult x nn)

/-- 7XNN `ADD Vx, byte` (R192). -/
def execAddByte (x : Reg) (nn : Byte) (s : State) : Host.Outcome State Fault Refusal :=
  .next (s.writeResult x (sumByte (s.reg x) nn))

/-- 8XY0 `LD Vx, Vy` (R193). -/
def execLdReg (x y : Reg) (s : State) : Host.Outcome State Fault Refusal := .next (s.writeResult x (s.reg y))

/-- 8XY1 `OR Vx, Vy` (R194). -/
def execOrReg (x y : Reg) (s : State) : Host.Outcome State Fault Refusal :=
  .next (s.writeResult x (s.reg x ||| s.reg y))

/-- 8XY2 `AND Vx, Vy` (R195). -/
def execAndReg (x y : Reg) (s : State) : Host.Outcome State Fault Refusal :=
  .next (s.writeResult x (s.reg x &&& s.reg y))

/-- 8XY3 `XOR Vx, Vy` (R196). -/
def execXorReg (x y : Reg) (s : State) : Host.Outcome State Fault Refusal :=
  .next (s.writeResult x (s.reg x ^^^ s.reg y))

/-- 8XY4 `ADD Vx, Vy` (R197). -/
def execAddReg (x y : Reg) (s : State) : Host.Outcome State Fault Refusal :=
  .next (s.writeFlagged x (sumByte (s.reg x) (s.reg y)) (carry (s.reg x) (s.reg y)))

/-- 8XY5 `SUB Vx, Vy` (R198). -/
def execSubReg (x y : Reg) (s : State) : Host.Outcome State Fault Refusal :=
  .next (s.writeFlagged x (differenceByte (s.reg x) (s.reg y)) (noBorrow (s.reg x) (s.reg y)))

/-- 8XY7 `SUBN Vx, Vy` (R200). -/
def execSubnReg (x y : Reg) (s : State) : Host.Outcome State Fault Refusal :=
  .next (s.writeFlagged x (differenceByte (s.reg y) (s.reg x)) (noBorrow (s.reg y) (s.reg x)))

/-- The state after a right shift, for either value of the shift source quirk (R199). -/
def State.shiftRight (s : State) (usesVy : Bool) (x y : Reg) : State :=
  s.writeFlagged x (shiftedRight (s.shiftSource usesVy x y)) (outOfRight (s.shiftSource usesVy x y))

/-- The state after a left shift, for either value of the shift source quirk (R201). -/
def State.shiftLeft (s : State) (usesVy : Bool) (x y : Reg) : State :=
  s.writeFlagged x (shiftedLeft (s.shiftSource usesVy x y)) (outOfLeft (s.shiftSource usesVy x y))

/-- 8XY6 `SHR Vx, Vy` (R199). -/
def execShrReg (x y : Reg) (s : State) : Host.Outcome State Fault Refusal :=
  .next (s.shiftRight Config.shiftUsesVy x y)

/-- 8XYE `SHL Vx, Vy` (R201). -/
def execShlReg (x y : Reg) (s : State) : Host.Outcome State Fault Refusal :=
  .next (s.shiftLeft Config.shiftUsesVy x y)

/-- The state after storing a drawn byte under a mask (R202). -/
def State.storeRandom (s : State) (draw : Byte) (x : Reg) (nn : Byte) : State :=
  (s.writeResult x (draw &&& nn)).nextDraw

/-- CXNN `RND Vx, byte` (R202): the byte is a free value. -/
def execRnd (x : Reg) (nn : Byte) (s : State) : Host.Outcome State Fault Refusal :=
  .next (s.storeRandom (Config.freeByte s.draws) x nn)

end Sys2Proof.Machine
end

