-- ==== Sys2Proof/Machine/ControlFlow.lean ====
section
/-! DEFINITION. Return, jump, call, the register skips and jump with offset (spec/41_control_flow.md). Each meaning takes
the state with PC = pc0 and makes the pre-increment itself (40_cycle.md R134). -/

namespace Sys2Proof.Machine

/-- A skip: PC past the next instruction iff the condition holds (R160). -/
def State.skipIf (s : State) (cond : Bool) : State := if cond then s.advance.advance else s.advance

/-- 00EE `RET` (R161). -/
def execRet (s : State) : Host.Outcome State Fault Refusal :=
  match s.stack.getLast? with
  | none => .next (s.raise .stackUnderflow (some (encode .ret)) none)
  | some a => .next ((s.setStack s.stack.dropLast).setPc a)

/-- 1NNN `JP addr` (R162). -/
def execJp (nnn : Addr12) (s : State) : Host.Outcome State Fault Refusal := .next (s.setPc (addrWord nnn))

/-- 2NNN `CALL addr` (R163): the address pushed is that of the next instruction. -/
def execCall (nnn : Addr12) (s : State) : Host.Outcome State Fault Refusal :=
  if s.stack.length ≥ Config.stackDepth then .next (s.raise .stackOverflow (some (encode (.call nnn))) none)
  else .next ((s.setStack (s.stack ++ [s.advance.pc])).setPc (addrWord nnn))

/-- 3XNN `SE Vx, byte` (R164). -/
def execSeByte (x : Reg) (nn : Byte) (s : State) : Host.Outcome State Fault Refusal :=
  .next (s.skipIf (s.reg x == nn))

/-- 4XNN `SNE Vx, byte` (R165). -/
def execSneByte (x : Reg) (nn : Byte) (s : State) : Host.Outcome State Fault Refusal :=
  .next (s.skipIf (s.reg x != nn))

/-- 5XY0 `SE Vx, Vy` (R166). -/
def execSeReg (x y : Reg) (s : State) : Host.Outcome State Fault Refusal :=
  .next (s.skipIf (s.reg x == s.reg y))

/-- 9XY0 `SNE Vx, Vy` (R167). -/
def execSneReg (x y : Reg) (s : State) : Host.Outcome State Fault Refusal :=
  .next (s.skipIf (s.reg x != s.reg y))

/-- BNNN `JP V0, addr` (R168). -/
def execJpV0 (nnn : Addr12) (s : State) : Host.Outcome State Fault Refusal :=
  .next (s.setPc (s.jumpOffsetTarget Config.jumpOffsetMode nnn))

end Sys2Proof.Machine
end

