-- ==== Sys2Proof/Machine/Display.lean ====
section
/-! DEFINITION. Screen clear and the sprite blitter (spec/43_display.md). Each meaning takes the state with PC = pc0 and
makes the pre-increment itself (40_cycle.md R134). -/

namespace Sys2Proof.Machine

/-- The bitmap while a sprite is drawn, and whether a set pixel has been flipped (R235). -/
structure Canvas where
  fb  : Bitmap
  hit : Bool
  deriving DecidableEq, Repr

/-- One sprite bit at column x, row y: a set bit inside the bitmap flips its pixel and collides with a set one; any other
bit touches nothing (R235, R236). -/
def plotBit (c : Canvas) (x y : Nat) (bit : Bool) : Canvas :=
  if bit && x < Config.screenW && y < Config.screenH then
    { fb := Bitmap.flip c.fb x y, hit := c.hit || Bitmap.pixel c.fb x y }
  else c

/-- One sprite byte as row y, its most significant bit at column x (R232). -/
def drawByte (c : Canvas) (x y : Nat) (b : Byte) : Canvas :=
  (List.range 8).foldl (fun c k => plotBit c (x + k) y (b.getLsbD (7 - k))) c

/-- The sprite bytes as rows from y on (R232, R233). -/
def drawBytes (c : Canvas) (x y : Nat) : List Byte → Canvas
  | [] => c
  | b :: bs => drawBytes (drawByte c x y b) x (y + 1) bs

/-- 00E0 `CLS` (R230). -/
def execCls (s : State) : Host.Outcome State Fault Refusal := .next (s.advance.present Bitmap.clear)

/-- The state after a sprite is drawn: bitmap, collision flag, `Present` (R234). The operands are those of `s` (R237). -/
def State.drawSprite (s : State) (x y : Reg) (n : Nibble) : State :=
  let c := drawBytes { fb := s.fb, hit := false } (s.startColumn x) (s.startRow y) (s.spriteBytes n)
  (s.advance.setReg vF (flagByte c.hit)).present c.fb

/-- DXYN `DRW Vx, Vy, nibble` (R234, R239, R241). -/
def execDrw (x y : Reg) (n : Nibble) (s : State) : Host.Outcome State Fault Refusal :=
  if n = 0 then .next (s.raise .unimplementedInstruction (some (encode (.drw x y n))) none)
  else .next (s.accessing (.drw x y n) (s.i.toNat + n.toNat - 1) (s.drawSprite x y n))

end Sys2Proof.Machine
end

