-- ==== Sys2Proof/Machine/IndexMemory.lean ====
section
/-! DEFINITION. The index register and the instructions that move bytes through it (spec/44_index_memory.md). Each meaning
takes the state with PC = pc0 and makes the pre-increment itself (40_cycle.md R134). -/

namespace Sys2Proof.Machine

/-- ANNN `LD I, addr` (R260). -/
def execLdI (nnn : Addr12) (s : State) : Host.Outcome State Fault Refusal := .next (s.advance.setI (addrWord nnn))

/-- FX1E `ADD I, Vx` (R262): VF is written on every execution. -/
def execAddI (x : Reg) (s : State) : Host.Outcome State Fault Refusal :=
  .next ((s.advance.setI (indexSum s.i (s.reg x))).setReg vF (flagByte (indexOverflow s.i (s.reg x))))

/-- FX29 `LD F, Vx` (R264). -/
def execLdF (x : Reg) (s : State) : Host.Outcome State Fault Refusal :=
  .next (s.advance.setI (glyphAddress (s.reg x)))

/-- FX33 `LD B, Vx` (R265). -/
def execLdB (x : Reg) (s : State) : Host.Outcome State Fault Refusal :=
  .next (s.accessing (.ldB x) (s.i.toNat + 2)
    (s.advance.setMem (Memory.writeBytes s.mem s.i.toNat (bcdDigits (s.reg x)))))

/-- The state after a bulk store, for either value of the auto-increment quirk (R266, R268). -/
def State.bulkStore (s : State) (autoInc : Bool) (x : Reg) : State :=
  (s.advance.setMem (Memory.writeBytes s.mem s.i.toNat (s.regsUpTo x))).setI (s.indexAfterBulk autoInc x)

/-- The state after a bulk load, for either value of the auto-increment quirk (R267, R268). -/
def State.bulkLoad (s : State) (autoInc : Bool) (x : Reg) : State :=
  (s.advance.loadRegsFrom x).setI (s.indexAfterBulk autoInc x)

/-- FX55 `LD [I], Vx` (R266). -/
def execStoreRegs (x : Reg) (s : State) : Host.Outcome State Fault Refusal :=
  .next (s.accessing (.storeRegs x) (s.i.toNat + x.val) (s.bulkStore Config.indexAutoInc x))

/-- FX65 `LD Vx, [I]` (R267). -/
def execLoadRegs (x : Reg) (s : State) : Host.Outcome State Fault Refusal :=
  .next (s.accessing (.loadRegs x) (s.i.toNat + x.val) (s.bulkLoad Config.indexAutoInc x))

end Sys2Proof.Machine
end

