-- ==== Sys2Proof/Machine/KeysTimers.lean ====
section
/-! DEFINITION. The keypad and timer instructions (spec/45_keys_timers.md). Each meaning takes the state with PC = pc0 and
makes the pre-increment itself (40_cycle.md R134). -/

namespace Sys2Proof.Machine

/-- A key skip: skips iff the key's held flag is `want`; a value above 15 names no key and faults (R290 to R292). -/
def State.keySkip (s : State) (i : Instr) (b : Byte) (want : Bool) : State :=
  match s.heldKey b with
  | none => s.raise .keyOutOfRange (some (encode i)) (some (b.setWidth 17))
  | some held => s.skipIf (held == want)

/-- EX9E `SKP Vx` (R290). -/
def execSkp (x : Reg) (s : State) : Host.Outcome State Fault Refusal := .next (s.keySkip (.skp x) (s.reg x) true)

/-- EXA1 `SKNP Vx` (R291). -/
def execSknp (x : Reg) (s : State) : Host.Outcome State Fault Refusal := .next (s.keySkip (.sknp x) (s.reg x) false)

/-- FX07 `LD Vx, DT` (R293). -/
def execLdVxDt (x : Reg) (s : State) : Host.Outcome State Fault Refusal := .next (s.advance.setReg x s.dt)

/-- The state after a key has been awaited, for any free choice (R294, R295): with no key pressed PC is back at pc0 and
nothing changes. -/
def State.awaitKey (s : State) (choice : Nat) (x : Reg) : State :=
  match s.pressedKeys with
  | [] => s
  | k :: ks => (s.advance.setReg x (.ofNat 8 (chosenKey choice k ks).val)).nextDraw

/-- FX0A `LD Vx, K` (R294): which pressed key is a free value. It writes no timer (R296). -/
def execLdVxK (x : Reg) (s : State) : Host.Outcome State Fault Refusal :=
  .next (s.awaitKey (Config.freeChoice s.draws) x)

/-- FX15 `LD DT, Vx` (R297). -/
def execLdDtVx (x : Reg) (s : State) : Host.Outcome State Fault Refusal := .next (s.advance.setDt (s.reg x))

/-- FX18 `LD ST, Vx` (R298). -/
def execLdStVx (x : Reg) (s : State) : Host.Outcome State Fault Refusal := .next (s.advance.setSt (s.reg x))

end Sys2Proof.Machine
end

