-- ==== Sys2Proof/Machine/Iteration.lean ====
section
/-! DEFINITION. One iteration of the execution loop, the core's step (spec/40_cycle.md R130 to R137). -/

namespace Sys2Proof.Machine

/-- Fetch, decode and execute, from the state after the poll (40_cycle.md R130, R132, R135). A fetch outside memory faults
first, then an unimplemented word, then the instruction's own checks (60_exceptions.md R325). -/
def fetchExecute (s : State) : Host.Outcome State Fault Refusal :=
  match s.fetch with
  | none => .next (s.raise .pcOutOfBounds none none)
  | some w =>
    match decodeWord w with
    | .error _ => .next (s.raise .unimplementedInstruction (some w) none)
    | .ok i => exec i s

/-- One iteration (40_cycle.md R130). A halted core takes no step (10_state.md R49); a quit is tested after the keypad
update and before the fetch (R131). Pacing has no effect (R138). -/
def iteration (s : State) : Host.Outcome State Fault Refusal :=
  match s.run with
  | .haltedFault => .fault .coreHalted
  | .haltedQuit => .fault .coreHalted
  | .running => if s.nextPoll.quit then .next s.polled.quitCore else fetchExecute s.polled

end Sys2Proof.Machine
end

