-- ==== Sys2Proof/Machine/Load.lean ====
section
/-! DEFINITION. Reset with a program image (spec/70_reset_and_hazards.md R370 to R372). -/

namespace Sys2Proof.Machine

/-- The longest image that can be placed (R372). -/
def maxImage : Nat := Config.memSize - Config.progBase

/-- The state after reset with an image: no state where none is supplied or it is too long (R370, R372,
60_exceptions.md R329); else the image verbatim at `PROG_BASE` and every other part as `State.reset` has it. -/
def State.resetWith (image : Option (List Byte)) : Option State :=
  match image with
  | none => none
  | some bytes =>
    if bytes.length > maxImage then none
    else some (State.reset.setMem (Memory.writeBytes State.reset.mem Config.progBase bytes))

end Sys2Proof.Machine
end

