-- ==== Sys2Proof/Machine/Step.lean ====
section
/-! DEFINITION. One step of the agent whose turn it is (spec/60_exceptions.md R360), and the placing of an instruction
where the next step fetches it. -/

namespace Sys2Proof.Machine

/-- One step: an iteration of the core (40_cycle.md R130) or a tick of the timer engine (60_exceptions.md R345). -/
def step (s : State) : Host.Outcome State Fault Refusal :=
  match s.turn with
  | .timer => .next s.takeTurn.tick
  | .core => iteration s.takeTurn

/-- `s` with the instruction whose bits are `w` placed where the next step fetches, and that step made an iteration of a
running core. From `State.reset` only memory changes. -/
def State.withFetchWord (s : State) (nbits w : Nat) : State :=
  s.readyCore.placeWord (.ofNat 16 (w % 2 ^ nbits))

end Sys2Proof.Machine
end

