-- ==== Sys2Proof/Machine/Run.lean ====
section
/-! DEFINITION. Infinite runs of the block's two agents and the weak fairness of the timer engine (spec/60_exceptions.md
R346, R360). A run is given its turns and its polls from outside, one for each step, so that every infinite placing of
ticks between iterations, and every infinite input, is a run. -/

namespace Sys2Proof.Machine

/-- One turn of a run: an iteration of the core with what its poll brings, or a tick of the timer engine (R360,
00_scope.md R8). -/
inductive Turn where
  | core (poll : Poll)
  | timer
  deriving DecidableEq, Repr

/-- The state with a turn put before the machine: whose turn it is and, for the core, its poll. -/
def State.given (s : State) : Turn → State
  | .core poll => { s with schedule := [.core], polls := [poll] }
  | .timer => { s with schedule := [.timer] }

/-- The states are those an infinite run goes through when it is given the turns: each is the next state of the one
before. -/
def IsRun (states : Nat → State) (turns : Nat → Turn) : Prop :=
  ∀ n, step ((states n).given (turns n)) = .next (states (n + 1))

/-- Weak fairness: "in an infinite run, the timer engine ticks infinitely often" (R346, decision D35). -/
def WeaklyFair (turns : Nat → Turn) : Prop := ∀ n, ∃ m, n ≤ m ∧ turns m = .timer

/-- The instruction a state fetches, none where the fetch or the decoding faults (40_cycle.md R132, R135). -/
def State.nextInstr (s : State) : Option Instr :=
  match s.fetch with
  | none => none
  | some w =>
    match decodeWord w with
    | .error _ => none
    | .ok i => some i

end Sys2Proof.Machine
end

