-- ==== Sys2Proof/Safety.lean ====
section
/-! DEFINITION. The terms the claims use: where an instruction faults and with which record (spec/60_exceptions.md R321 to
R325), where it leaves PC (10_state.md R38), what it may write (10_state.md, 20_memory.md R73), which pixels a sprite covers
(43_display.md R232 to R236), and the invariant of the machine. Each is written from the rules it cites, not from the
meanings. -/

namespace Sys2Proof.Machine

/-- The fault an instruction raises itself in a state, with the record's `info`; none where it executes normally (R321,
R322, R323, R325). -/
def ownFault (s : State) : Instr → Option (FaultCause × Option (BitVec 17))
  | .ret => if s.stack.length = 0 then some (.stackUnderflow, none) else none
  | .call _ => if s.stack.length ≥ Config.stackDepth then some (.stackOverflow, none) else none
  | .drw _ _ n =>
    if n.toNat = 0 then some (.unimplementedInstruction, none)
    else if s.i.toNat + n.toNat - 1 > 0xFFF then some (.memOutOfBounds, some (.ofNat 17 (s.i.toNat + n.toNat - 1)))
    else none
  | .ldB _ => if s.i.toNat + 2 > 0xFFF then some (.memOutOfBounds, some (.ofNat 17 (s.i.toNat + 2))) else none
  | .storeRegs x =>
    if s.i.toNat + x.val > 0xFFF then some (.memOutOfBounds, some (.ofNat 17 (s.i.toNat + x.val))) else none
  | .loadRegs x =>
    if s.i.toNat + x.val > 0xFFF then some (.memOutOfBounds, some (.ofNat 17 (s.i.toNat + x.val))) else none
  | .skp x => if (s.reg x).toNat > 15 then some (.keyOutOfRange, some (.ofNat 17 (s.reg x).toNat)) else none
  | .sknp x => if (s.reg x).toNat > 15 then some (.keyOutOfRange, some (.ofNat 17 (s.reg x).toNat)) else none
  | .cls | .jp _ | .seByte _ _ | .sneByte _ _ | .seReg _ _ | .ldByte _ _ | .addByte _ _ | .ldReg _ _ | .orReg _ _
  | .andReg _ _ | .xorReg _ _ | .addReg _ _ | .subReg _ _ | .shrReg _ _ | .subnReg _ _ | .shlReg _ _ | .sneReg _ _
  | .ldI _ | .jpV0 _ | .rnd _ _ | .ldVxDt _ | .ldVxK _ | .ldDtVx _ | .ldStVx _ | .addI _ | .ldF _ => none

/-- PC plus 2, or plus 4 where a skip's condition holds (41_control_flow.md R160). -/
def pcAfterSkip (s : State) (cond : Prop) [Decidable cond] : Word := if cond then s.pc + 4 else s.pc + 2

/-- Where an instruction that executes normally leaves PC (10_state.md R38). -/
def pcAfter (s : State) : Instr → Word
  | .ret => s.stack.getLastD 0
  | .jp nnn => .ofNat 16 nnn.toNat
  | .call nnn => .ofNat 16 nnn.toNat
  | .jpV0 nnn => .ofNat 16 (nnn.toNat + (s.reg v0).toNat)
  | .seByte x nn => pcAfterSkip s (s.reg x = nn)
  | .sneByte x nn => pcAfterSkip s (s.reg x ≠ nn)
  | .seReg x y => pcAfterSkip s (s.reg x = s.reg y)
  | .sneReg x y => pcAfterSkip s (s.reg x ≠ s.reg y)
  | .skp x => pcAfterSkip s (s.held[(s.reg x).toNat]? = some true)
  | .sknp x => pcAfterSkip s (s.held[(s.reg x).toNat]? = some false)
  | .ldVxK _ => if s.pressed.contains true then s.pc + 2 else s.pc
  | .cls | .ldByte _ _ | .addByte _ _ | .ldReg _ _ | .orReg _ _ | .andReg _ _ | .xorReg _ _ | .addReg _ _ | .subReg _ _
  | .shrReg _ _ | .subnReg _ _ | .shlReg _ _ | .ldI _ | .rnd _ _ | .drw _ _ _ | .ldVxDt _ | .ldDtVx _ | .ldStVx _
  | .addI _ | .ldF _ | .ldB _ | .storeRegs _ | .loadRegs _ => s.pc + 2

/-- What an instruction may write beside PC. -/
structure Footprint where
  /-- The general registers it may write. -/
  regs : List Reg := []
  /-- The addresses it may store to. -/
  stored : List Nat := []
  /-- It may write I. -/
  index : Bool := false
  /-- It may push or pop. -/
  stack : Bool := false
  /-- It may write DT. -/
  delay : Bool := false
  /-- It may write ST. -/
  sound : Bool := false
  /-- It may write the bitmap and emit `Present`. -/
  display : Bool := false
  /-- It may take a free value. -/
  draws : Bool := false
  deriving DecidableEq, Repr

/-- The writers of each part of the state: VF as a flag (10_state.md R32), I (R36), the stack (R41), the timers (R42), the
bitmap (R44), memory (20_memory.md R73), the registers (the instruction rules). -/
def footprint (s : State) : Instr → Footprint
  | .jp _ | .seByte _ _ | .sneByte _ _ | .seReg _ _ | .sneReg _ _ | .jpV0 _ | .skp _ | .sknp _ => {}
  | .ret | .call _ => { stack := true }
  | .cls => { display := true }
  | .drw _ _ _ => { regs := [vF], display := true }
  | .ldByte x _ | .addByte x _ | .ldReg x _ | .orReg x _ | .andReg x _ | .xorReg x _ | .ldVxDt x => { regs := [x] }
  | .addReg x _ | .subReg x _ | .shrReg x _ | .subnReg x _ | .shlReg x _ => { regs := [x, vF] }
  | .rnd x _ | .ldVxK x => { regs := [x], draws := true }
  | .ldI _ | .ldF _ => { index := true }
  | .addI _ => { regs := [vF], index := true }
  | .ldB _ => { stored := [s.i.toNat, s.i.toNat + 1, s.i.toNat + 2] }
  | .storeRegs x => { stored := (List.range (x.val + 1)).map (s.i.toNat + ·), index := Config.indexAutoInc }
  | .loadRegs x => { regs := (List.finRange 16).filter (· ≤ x), index := Config.indexAutoInc }
  | .ldDtVx _ => { delay := true }
  | .ldStVx _ => { sound := true }

/-- `t` differs from `s` only in PC, in the status of the block and in what the footprint lists. -/
structure Keeps (f : Footprint) (s t : State) : Prop where
  regs : ∀ r : Reg, r ∉ f.regs → t.reg r = s.reg r
  memory : ∀ a : Nat, a ∉ f.stored → Memory.read t.mem a = Memory.read s.mem a
  index : f.index = false → t.i = s.i
  stack : f.stack = false → t.stack = s.stack
  delay : f.delay = false → t.dt = s.dt
  sound : f.sound = false → t.st = s.st
  display : f.display = false → t.fb = s.fb ∧ t.presented = s.presented
  draws : f.draws = false → t.draws = s.draws
  keypad : t.held = s.held ∧ t.pressed = s.pressed
  inputs : t.polls = s.polls ∧ t.schedule = s.schedule

/-- An instruction that executes normally: only what the footprint lists changes beside PC, and no fault is taken. -/
def Normal (f : Footprint) (s t : State) : Prop := Keeps f s t ∧ t.fault = s.fault ∧ t.run = s.run

/-- The state after a fault with this record is taken in `s` (60_exceptions.md R322, R324): the record, the halt, and
nothing else. -/
def faulted (s : State) (cause : FaultCause) (word : Option Word) (info : Option (BitVec 17)) : State :=
  { s with fault := some { cause := cause, pc := s.pc, word := word, info := info }, run := .haltedFault }

/-- The bit of a sprite of n rows at I, drawn at column x0 and row y0, that falls on the pixel in column px, row py
(43_display.md R232, R233); false off the sprite. -/
def spriteBit (s : State) (n : Nibble) (x0 y0 px py : Nat) : Bool :=
  x0 ≤ px && px < x0 + 8 && y0 ≤ py && py < y0 + n.toNat
    && (Memory.read s.mem (s.i.toNat + (py - y0))).getLsbD (7 - (px - x0))

/-- The word is not executed: it is an unimplemented encoding or DXY0 (30_encoding.md R106). -/
def wordFaults (w : Word) : Bool := !wordImplemented w || (w.toNat / 0x1000 == 0xD && w.toNat % 0x10 == 0)

/-- The record has the fields R322 gives its cause, with the values its cause allows (60_exceptions.md R321, R322). -/
def FaultRecord.wf (r : FaultRecord) : Bool :=
  match r.cause, r.word, r.info with
  | .unimplementedInstruction, some w, none => wordFaults w
  | .pcOutOfBounds, none, none => r.pc.toNat + 1 > 0xFFF
  | .memOutOfBounds, some w, some a =>
    (w.toNat / 0x1000 == 0xD || w.toNat / 0x1000 == 0xF) && 0x1000 ≤ a.toNat && a.toNat ≤ 0x1000E
  | .stackOverflow, some w, none => w.toNat / 0x1000 == 0x2
  | .stackUnderflow, some w, none => w.toNat == 0x00EE
  | .keyOutOfRange, some w, some k => w.toNat / 0x1000 == 0xE && 16 ≤ k.toNat && k.toNat ≤ 255
  | _, _, _ => false

/-- The invariant of the machine, over states and not over runs. -/
structure Inv (s : State) : Prop where
  /-- Memory is in its canonical form. -/
  memory : Memory.wf s.mem = true
  /-- The stack is bounded (10_state.md R40). -/
  depth : s.stack.length ≤ Config.stackDepth
  /-- Every return address is at most 0x1000 (92_eei_decisions.md D50). -/
  returns : ∀ a ∈ s.stack, a.toNat ≤ 0x1000
  /-- PC never exceeds the highest jump target 0x10FE (41_control_flow.md R168). -/
  pc : s.pc.toNat ≤ 0x10FE
  /-- The core is halted by a fault iff there is a record (10_state.md R48, R49). -/
  status : s.run = .haltedFault ↔ s.fault.isSome = true
  /-- The record is of the instruction PC is left at (60_exceptions.md R322, R324). -/
  record : ∀ r, s.fault = some r → r.wf = true ∧ r.pc = s.pc
  /-- The bitmap is the one presented last, the clear one before that (43_display.md R231). -/
  shown : s.fb = s.presented.getLastD Bitmap.clear

end Sys2Proof.Machine
end

