-- ==== Sys2Proof/Certificates/Slice0/Obligations.lean ====
section
/-! DEFINITION. The statements for the provers, from the numbered rules of spec/. An instruction's result is stated with
`Normal`: beside PC and what the given footprint lists nothing changes, and no fault is taken. -/

open Sys2Proof Sys2Proof.Machine

/-! ## Encoding (spec/30_encoding.md) -/

/-- Decoding the word of an instruction gives the instruction, for every operand (R101, R104, R113). -/
def Obligations.DecodeOfEncodeIsIdentity : Prop := ∀ i : Instr, decodeWord (encode i) = .ok i

/-- Encoding the instruction a word decodes to gives the word: decoding drops no bit (R101, R105). -/
def Obligations.EncodeOfDecodeIsIdentity : Prop := ∀ (w : Word) (i : Instr), decodeWord w = .ok i → encode i = w

/-- The decoder rejects, by name, exactly the words R106 lists (strict decoding is the spec's own decision D4). -/
def Obligations.DecoderRejectsExactlyUnimplementedWords : Prop :=
  ∀ w : Word,
    (wordImplemented w = true → ∃ i, decodeWord w = .ok i) ∧
    (wordImplemented w = false → decodeWord w = .error (.unimplemented w))

/-- A word that decodes is of the instruction's row of the opcode table and of no other; a word that does not is of no row
(R104, R107). -/
def Obligations.EachWordIsOfAtMostOneRow : Prop :=
  ∀ (w : Word) (k : Nat), k < opcodeRows.length →
    match decodeWord w with
    | .ok i => (matchesRow w (opcodeRows.getD k (0, 0)) = true ↔ k = i.rowIndex)
    | .error _ => matchesRow w (opcodeRows.getD k (0, 0)) = false

/-- Words written out from the patterns of R104 and the examples of R113 decode to their instructions. -/
def Obligations.WrittenWordsDecode : Prop :=
  decodeWord 0xD125 = .ok (.drw 1 2 5) ∧ decodeWord 0x6A3C = .ok (.ldByte 0xA 0x3C) ∧
  decodeWord 0x00EE = .ok .ret ∧ decodeWord 0x12A0 = .ok (.jp 0x2A0) ∧ decodeWord 0x8346 = .ok (.shrReg 3 4) ∧
  decodeWord 0xA300 = .ok (.ldI 0x300) ∧ decodeWord 0xE19E = .ok (.skp 1) ∧ decodeWord 0xF365 = .ok (.loadRegs 3)

/-! ## The cycle (spec/40_cycle.md) -/

/-- Fetch reads the two bytes at PC, the lower address high, exactly where both lie in memory (R132; big-endian is the
spec's decision D1, the check at fetch its decision D7). -/
def Obligations.FetchIsBigEndianInsideMemory : Prop :=
  ∀ s : State,
    (s.pc.toNat + 1 ≤ 0xFFF → ∃ w, s.fetch = some w ∧
      w.toNat = (Memory.read s.mem s.pc.toNat).toNat * 256 + (Memory.read s.mem (s.pc.toNat + 1)).toNat) ∧
    (s.pc.toNat + 1 > 0xFFF → s.fetch = none)

/-- In the core's turn of a running core whose poll brings no quit, a step is `exec` of the instruction the bytes at PC
decode to, at the state after the poll, where PC is still the instruction's address. The step adds the taking of the turn
and the poll, and nothing else (R130, R135). -/
def Obligations.StepRunsDecodedInstruction : Prop :=
  ∀ (s : State) (i : Instr), s.run = .running → s.turn = .core → s.nextPoll.quit = false → s.pc.toNat + 1 ≤ 0xFFF →
    decodeBytes [Memory.read s.mem s.pc.toNat, Memory.read s.mem (s.pc.toNat + 1)] = .ok (i, []) →
    step s = exec i s.takeTurn.polled ∧ s.takeTurn.polled.pc = s.pc ∧ s.takeTurn.polled.mem = s.mem

/-- A fetch that would leave memory takes `PcOutOfBounds` with its record (R132, 60_exceptions.md R321, R322, R324; the
check at fetch is the spec's decision D7, the record its decision D6). -/
def Obligations.FetchOutsideMemoryFaults : Prop :=
  ∀ s : State, s.run = .running → s.turn = .core → s.nextPoll.quit = false → s.pc.toNat + 1 > 0xFFF →
    step s = .next (faulted s.takeTurn.polled .pcOutOfBounds none none)

/-- An unimplemented word takes `UnimplementedInstruction` with its record (30_encoding.md R106, 40_cycle.md R135; the
spec's decisions D4, D6). -/
def Obligations.UnimplementedWordFaults : Prop :=
  ∀ (s : State) (w : Word), s.run = .running → s.turn = .core → s.nextPoll.quit = false → s.fetch = some w →
    wordImplemented w = false →
    step s = .next (faulted s.takeTurn.polled .unimplementedInstruction (some w) none)

/-- A quit request halts the core after the keypad update and before the fetch: no instruction runs (R131; the place of
the test is the spec's decision D37). -/
def Obligations.QuitHaltsBeforeFetch : Prop :=
  ∀ s : State, s.run = .running → s.turn = .core → s.nextPoll.quit = true →
    ∃ t, step s = .next t ∧ t = { s with
      run := .haltedQuit, schedule := s.schedule.tail, polls := s.polls.tail, held := t.held, pressed := t.pressed } ∧
      t.held = s.polled.held ∧ t.pressed = s.polled.pressed

/-- After a poll a key is pressed iff the poll brought its key-down, and held as the last event about it says, or as it was
(10_state.md R47; the order within a poll is the spec's decision D36). -/
def Obligations.PollAppliesKeyEventsInOrder : Prop :=
  ∀ (s : State) (k : Key),
    (s.polled.pressed[k.val] = true ↔ KeyEvent.keyDown k ∈ s.nextPoll.events) ∧
    s.polled.held[k.val] =
      (match (s.nextPoll.events.filter fun e => e == .keyDown k || e == .keyUp k).getLast? with
       | some (.keyDown _) => true
       | some (.keyUp _) => false
       | none => s.held[k.val])

/-- A halted core takes no step; only the timer engine can still step, and then only the timers change (10_state.md R49,
60_exceptions.md R327, R348; the spec's decisions D5, D45). That the core's turn is then the stuck outcome is the model's
choice, notes/assumptions/8.md. -/
def Obligations.HaltedCoreTakesNoStep : Prop :=
  ∀ s : State, s.run ≠ .running →
    (s.turn = .core → step s = .fault .coreHalted) ∧
    (s.turn = .timer →
      ∃ t, step s = .next t ∧ t = { s with dt := t.dt, st := t.st, schedule := s.schedule.tail })

/-- A fault a step takes is precise: beside the poll's keypad update nothing has changed but the record and the status, and
the record holds the address PC is left at (40_cycle.md R136, 60_exceptions.md R324; the spec's decision D5). -/
def Obligations.FaultsArePrecise : Prop :=
  ∀ s t : State, s.run = .running → step s = .next t → t.run = .haltedFault →
    ∃ r, t = { s.takeTurn.polled with fault := some r, run := .haltedFault } ∧ r.pc = s.pc

/-! ## The timer engine (spec/60_exceptions.md) -/

/-- A step of the timer engine is one tick: each counter down by one on its own value, not below 0, and nothing else but
the turn (R345; the spec's decision D35). -/
def Obligations.TickDecrementsEachTimer : Prop :=
  ∀ s : State, s.turn = .timer →
    ∃ t, step s = .next t ∧ t.dt.toNat = s.dt.toNat - 1 ∧ t.st.toNat = s.st.toNat - 1 ∧
      t = { s with dt := t.dt, st := t.st, schedule := s.schedule.tail }

/-- After n ticks each counter is down by n, stopping at 0, and nothing else has changed (R347, which the spec derives). -/
def Obligations.TicksCountDownToZero : Prop :=
  ∀ (n : Nat) (s : State),
    (State.tick^[n] s).dt.toNat = s.dt.toNat - n ∧ (State.tick^[n] s).st.toNat = s.st.toNat - n ∧
    State.tick^[n] s = { s with dt := (State.tick^[n] s).dt, st := (State.tick^[n] s).st }

/-- Any number of ticks, none included, can fall before the turn that is next: they tick the timers and leave the rest, the
schedule after them included (40_cycle.md R137, R346; the spec's decision D35). -/
def Obligations.TicksFallAnywhereBetweenIterations : Prop :=
  ∀ (n : Nat) (s : State),
    Host.Core.run Sys2Proof.core n { s with schedule := List.replicate n .timer ++ s.schedule } = .next (State.tick^[n] s)

/-- In a weakly fair infinite run in which no iteration from the n-th turn on starts at a `LD DT, Vx`, DT reaches 0 and stays
there, and so does ST without `LD ST, Vx`. It rests on fairness, as R346 says such a claim does (R346, R347; the spec's
decision D35). -/
def Obligations.FairRunCountsTimersDownToZero : Prop :=
  ∀ (states : Nat → State) (turns : Nat → Turn), IsRun states turns → WeaklyFair turns → ∀ n : Nat,
    ((∀ m, n ≤ m → ∀ x p, turns m = .core p → (states m).nextInstr ≠ some (.ldDtVx x)) →
      ∃ k, n ≤ k ∧ ∀ m, k ≤ m → (states m).dt = 0) ∧
    ((∀ m, n ≤ m → ∀ x p, turns m = .core p → (states m).nextInstr ≠ some (.ldStVx x)) →
      ∃ k, n ≤ k ∧ ∀ m, k ≤ m → (states m).st = 0)

/-! ## Control transfer (spec/41_control_flow.md) -/

/-- `JP addr` sets PC to its address, whatever it is; from address 0xFFF the next fetch reads no word (R162). -/
def Obligations.JumpSetsPc : Prop :=
  ∀ (nnn : Addr12) (s : State), ∃ t, exec (.jp nnn) s = .next t ∧ Normal {} s t ∧ t.pc.toNat = nnn.toNat ∧
    (nnn = 0xFFF → t.fetch = none)

/-- `JP V0, addr` sets PC to its address plus V0, without wrap (R168; mode V0 is the hardware's, the spec's decision
D18); in mode VX the register is the one the address's top nibble names. -/
def Obligations.JumpWithOffsetAddsRegister : Prop :=
  ∀ (nnn : Addr12) (s : State),
    (∃ t, exec (.jpV0 nnn) s = .next t ∧ Normal {} s t ∧ t.pc.toNat = nnn.toNat + (s.reg 0).toNat) ∧
    (∀ x : Reg, nnn.toNat / 256 = x.val →
      (s.jumpOffsetTarget .vx nnn).toNat = nnn.toNat + (s.reg x).toNat)

/-- `CALL addr` on a stack that is not full pushes the address of the next instruction and jumps (R163; the depth is the
spec's decision D9). -/
def Obligations.CallPushesReturnAddress : Prop :=
  ∀ (nnn : Addr12) (s : State), s.stack.length < 16 →
    ∃ t, exec (.call nnn) s = .next t ∧ Normal { stack := true } s t ∧
      t.stack = s.stack ++ [s.pc + 2] ∧ t.pc.toNat = nnn.toNat

/-- `RET` on a stack that is not empty pops its last address into PC (R161). -/
def Obligations.ReturnPopsIntoPc : Prop :=
  ∀ (rest : List Word) (a : Word) (s : State), s.stack = rest ++ [a] →
    ∃ t, exec .ret s = .next t ∧ Normal { stack := true } s t ∧ t.stack = rest ∧ t.pc = a

/-- A return from any state with the stack a call left goes to the instruction after the call and leaves the stack as it
was before the call (R161, R163). -/
def Obligations.ReturnUndoesCall : Prop :=
  ∀ (nnn : Addr12) (s t u : State), s.stack.length < 16 → exec (.call nnn) s = .next t → u.stack = t.stack →
    ∃ w, exec .ret u = .next w ∧ w.pc = s.pc + 2 ∧ w.stack = s.stack

/-- `SE Vx, byte` and `SNE Vx, byte` skip the next instruction on equal and on not equal; neither writes a register or
faults (R164, R165). -/
def Obligations.ByteSkipsCompareRegister : Prop :=
  ∀ (x : Reg) (nn : Byte) (s : State),
    (∃ t, exec (.seByte x nn) s = .next t ∧ Normal {} s t ∧ t.pc = if s.reg x = nn then s.pc + 4 else s.pc + 2) ∧
    (∃ t, exec (.sneByte x nn) s = .next t ∧ Normal {} s t ∧ t.pc = if s.reg x ≠ nn then s.pc + 4 else s.pc + 2)

/-- `SE Vx, Vy` and `SNE Vx, Vy` skip the next instruction on equal and on not equal (R166, R167). -/
def Obligations.RegisterSkipsCompareRegisters : Prop :=
  ∀ (x y : Reg) (s : State),
    (∃ t, exec (.seReg x y) s = .next t ∧ Normal {} s t ∧ t.pc = if s.reg x = s.reg y then s.pc + 4 else s.pc + 2) ∧
    (∃ t, exec (.sneReg x y) s = .next t ∧ Normal {} s t ∧ t.pc = if s.reg x ≠ s.reg y then s.pc + 4 else s.pc + 2)

/-! ## Register loads and the ALU (spec/42_alu.md) -/

/-- `LD Vx, byte` and `LD Vx, Vy` write V[X] alone; `ADD Vx, byte` wraps modulo 256 and writes no flag (R191, R192,
R193). -/
def Obligations.LoadsAndAddImmediate : Prop :=
  ∀ (x y : Reg) (nn : Byte) (s : State),
    (∃ t, exec (.ldByte x nn) s = .next t ∧ Normal { regs := [x] } s t ∧ t.pc = s.pc + 2 ∧ t.reg x = nn) ∧
    (∃ t, exec (.addByte x nn) s = .next t ∧ Normal { regs := [x] } s t ∧ t.pc = s.pc + 2 ∧
      (t.reg x).toNat = ((s.reg x).toNat + nn.toNat) % 256) ∧
    (∃ t, exec (.ldReg x y) s = .next t ∧ Normal { regs := [x] } s t ∧ t.pc = s.pc + 2 ∧ t.reg x = s.reg y)

/-- `OR`, `AND` and `XOR` work bit by bit on V[X] and V[Y] and write V[X] alone (R194 to R196; that VF is not written is
the spec's decision D43). -/
def Obligations.LogicWorksBitByBit : Prop :=
  ∀ (x y : Reg) (s : State),
    (∃ t, exec (.orReg x y) s = .next t ∧ Normal { regs := [x] } s t ∧ t.pc = s.pc + 2 ∧
      ∀ k < 8, (t.reg x).getLsbD k = ((s.reg x).getLsbD k || (s.reg y).getLsbD k)) ∧
    (∃ t, exec (.andReg x y) s = .next t ∧ Normal { regs := [x] } s t ∧ t.pc = s.pc + 2 ∧
      ∀ k < 8, (t.reg x).getLsbD k = ((s.reg x).getLsbD k && (s.reg y).getLsbD k)) ∧
    (∃ t, exec (.xorReg x y) s = .next t ∧ Normal { regs := [x] } s t ∧ t.pc = s.pc + 2 ∧
      ∀ k < 8, (t.reg x).getLsbD k = ((s.reg x).getLsbD k != (s.reg y).getLsbD k))

/-- `ADD Vx, Vy`: the sum modulo 256 and the carry in VF; with X = F, VF is the carry (R190, R197; the order is the spec's
decision D20). -/
def Obligations.AddSetsCarry : Prop :=
  ∀ (x y : Reg) (s : State), ∃ t, exec (.addReg x y) s = .next t ∧ Normal { regs := [x, vF] } s t ∧ t.pc = s.pc + 2 ∧
    (x ≠ vF → (t.reg x).toNat = ((s.reg x).toNat + (s.reg y).toNat) % 256) ∧
    (t.reg vF).toNat = if (s.reg x).toNat + (s.reg y).toNat > 255 then 1 else 0

/-- `SUB Vx, Vy` and `SUBN Vx, Vy`: the difference modulo 256 and no-borrow in VF; with X = F, VF is the flag (R190, R198,
R200; the order is the spec's decision D20). -/
def Obligations.SubtractionsSetNoBorrow : Prop :=
  ∀ (x y : Reg) (s : State),
    (∃ t, exec (.subReg x y) s = .next t ∧ Normal { regs := [x, vF] } s t ∧ t.pc = s.pc + 2 ∧
      (x ≠ vF → ((t.reg x).toNat : Int) = (((s.reg x).toNat : Int) - (s.reg y).toNat) % 256) ∧
      (t.reg vF).toNat = if (s.reg x).toNat ≥ (s.reg y).toNat then 1 else 0) ∧
    (∃ t, exec (.subnReg x y) s = .next t ∧ Normal { regs := [x, vF] } s t ∧ t.pc = s.pc + 2 ∧
      (x ≠ vF → ((t.reg x).toNat : Int) = (((s.reg y).toNat : Int) - (s.reg x).toNat) % 256) ∧
      (t.reg vF).toNat = if (s.reg y).toNat ≥ (s.reg x).toNat then 1 else 0)

/-- `SHR Vx, Vy` and `SHL Vx, Vy` shift by one, the source by the quirk, and put the bit moved out into VF (R199, R201; the
quirk is open, decision D16, and the order is the spec's decision D20). -/
def Obligations.ShiftsMoveOutOneBit : Prop :=
  ∀ (x y : Reg) (s : State),
    (∃ t, exec (.shrReg x y) s = .next t ∧ Normal { regs := [x, vF] } s t ∧ t.pc = s.pc + 2 ∧
      (x ≠ vF → (t.reg x).toNat = (s.reg (if Config.shiftUsesVy then y else x)).toNat / 2) ∧
      (t.reg vF).toNat = (s.reg (if Config.shiftUsesVy then y else x)).toNat % 2) ∧
    (∃ t, exec (.shlReg x y) s = .next t ∧ Normal { regs := [x, vF] } s t ∧ t.pc = s.pc + 2 ∧
      (x ≠ vF → (t.reg x).toNat = (s.reg (if Config.shiftUsesVy then y else x)).toNat * 2 % 256) ∧
      (t.reg vF).toNat = (s.reg (if Config.shiftUsesVy then y else x)).toNat / 128)

/-- `RND Vx, byte` stores the drawn byte under the mask, whatever byte is drawn, so no bit outside the mask is set (R202;
the draw is free, decision D33, here `Config.freeByte`, notes/assumptions/5.md). -/
def Obligations.RandomByteIsMasked : Prop :=
  ∀ (x : Reg) (nn : Byte) (s : State),
    ∃ t, exec (.rnd x nn) s = .next t ∧ Normal { regs := [x], draws := true } s t ∧ t.pc = s.pc + 2 ∧
      (∀ k, (t.reg x).getLsbD k = ((Config.freeByte s.draws).getLsbD k && nn.getLsbD k)) ∧
      (nn = 0 → t.reg x = 0)

/-- Every byte under the mask is stored by some draw: the model shuts out none (R202, decision D33). -/
def Obligations.RandomByteAdmitsEveryValue : Prop :=
  ∀ (x : Reg) (nn b : Byte) (s : State), (∀ k, b.getLsbD k = true → nn.getLsbD k = true) →
    ∃ draw, (s.storeRandom draw x nn).reg x = b

/-! ## Display (spec/43_display.md) -/

/-- `CLS` clears every pixel and presents the clear bitmap (R230). -/
def Obligations.ClearScreenPresentsClearBitmap : Prop :=
  ∀ s : State, ∃ t, exec .cls s = .next t ∧ Normal { display := true } s t ∧ t.pc = s.pc + 2 ∧
    (∀ px py, Bitmap.pixel t.fb px py = false) ∧ t.presented = s.presented ++ [t.fb]

/-- `DRW` of height 1 to 15 whose bytes lie in memory: each pixel of the bitmap is XORed with the sprite bit that falls on
it, the start coordinates wrap and the rest is clipped, VF is 1 iff a set sprite bit met a set pixel, and the bitmap is
presented (R232 to R237; X or Y equal to F included, decisions D22, D24, D25). -/
def Obligations.DrawXorsClippedSprite : Prop :=
  ∀ (x y : Reg) (n : Nibble) (s : State), n.toNat ≠ 0 → s.i.toNat + n.toNat - 1 ≤ 0xFFF →
    ∃ t, exec (.drw x y n) s = .next t ∧ Normal { regs := [vF], display := true } s t ∧ t.pc = s.pc + 2 ∧
      (∀ px py, px < 64 → py < 32 → Bitmap.pixel t.fb px py =
        (Bitmap.pixel s.fb px py ^^ spriteBit s n ((s.reg x).toNat % 64) ((s.reg y).toNat % 32) px py)) ∧
      (t.reg vF = 0 ∨ t.reg vF = 1) ∧
      (t.reg vF = 1 ↔ ∃ px py, px < 64 ∧ py < 32 ∧ Bitmap.pixel s.fb px py = true ∧
        spriteBit s n ((s.reg x).toNat % 64) ((s.reg y).toNat % 32) px py = true) ∧
      t.presented = s.presented ++ [t.fb]

/-- Drawing the same sprite at the same place again restores the bitmap, and its VF is 1 iff a set sprite bit fell on a
pixel that was clear before the first draw (R234, R235; R238 derives the restoring). The clause on VF is the model's
reading, notes/assumptions/16.md: it follows R234 and R235 against R238's sentence on VF. The second draw may start in any
state with the bitmap, the coordinates, I and the memory of the first. -/
def Obligations.DrawTwiceCancels : Prop :=
  ∀ (x y : Reg) (n : Nibble) (s t u : State), n.toNat ≠ 0 → s.i.toNat + n.toNat - 1 ≤ 0xFFF →
    exec (.drw x y n) s = .next t → u.fb = t.fb → u.i = s.i → u.mem = s.mem →
    u.reg x = s.reg x → u.reg y = s.reg y →
    ∃ w, exec (.drw x y n) u = .next w ∧ w.fb = s.fb ∧
      (w.reg vF = 1 ↔ ∃ px py, px < 64 ∧ py < 32 ∧ Bitmap.pixel s.fb px py = false ∧
        spriteBit s n ((s.reg x).toNat % 64) ((s.reg y).toNat % 32) px py = true)

/-- The sentence of R238 on VF taken at its word: the second draw sets VF whenever the sprite has a set bit inside the
bitmap. It is expected to FAIL: where every such bit falls on a pixel that was set before the first draw, the first draw
clears it and the second meets no set pixel (R234, R235). See notes/assumptions/16.md. -/
def Obligations.SecondDrawAlwaysCollides : Prop :=
  ∀ (x y : Reg) (n : Nibble) (s t u w : State), n.toNat ≠ 0 → s.i.toNat + n.toNat - 1 ≤ 0xFFF →
    exec (.drw x y n) s = .next t → u.fb = t.fb → u.i = s.i → u.mem = s.mem →
    u.reg x = s.reg x → u.reg y = s.reg y → exec (.drw x y n) u = .next w →
    (∃ px py, px < 64 ∧ py < 32 ∧
      spriteBit s n ((s.reg x).toNat % 64) ((s.reg y).toNat % 32) px py = true) →
    w.reg vF = 1

/-- Only `CLS` and `DRW` emit `Present`, each one of the bitmap it leaves, and only when it takes no fault (R231; decision
D38). -/
def Obligations.OnlyClearAndDrawPresent : Prop :=
  ∀ (i : Instr) (s t : State), exec i s = .next t →
    t.presented =
      if (i = .cls ∨ ∃ x y n, i = .drw x y n) ∧ ownFault s i = none then s.presented ++ [t.fb] else s.presented

/-! ## Index register and memory (spec/44_index_memory.md) -/

/-- `LD I, addr` sets I to its address, and writes nothing else (R260). -/
def Obligations.LoadIndexSetsI : Prop :=
  ∀ (nnn : Addr12) (s : State),
    ∃ t, exec (.ldI nnn) s = .next t ∧ Normal { index := true } s t ∧ t.pc = s.pc + 2 ∧ t.i.toNat = nnn.toNat

/-- `ADD I, Vx`: the sum modulo 65536 and the 16-bit overflow in VF on every execution; with X = F the old VF is the addend
(R262; decision D21). -/
def Obligations.AddIndexSetsOverflow : Prop :=
  ∀ (x : Reg) (s : State),
    ∃ t, exec (.addI x) s = .next t ∧ Normal { regs := [vF], index := true } s t ∧ t.pc = s.pc + 2 ∧
      t.i.toNat = (s.i.toNat + (s.reg x).toNat) % 65536 ∧
      (t.reg vF).toNat = if s.i.toNat + (s.reg x).toNat > 0xFFFF then 1 else 0

/-- `LD F, Vx` sets I to the glyph of the low nibble of V[X] (R264; the font base is decision D12). -/
def Obligations.FontAddressOfLowNibble : Prop :=
  ∀ (x : Reg) (s : State),
    ∃ t, exec (.ldF x) s = .next t ∧ Normal { index := true } s t ∧ t.pc = s.pc + 2 ∧
      t.i.toNat = 0x50 + 5 * ((s.reg x).toNat % 16)

/-- `LD B, Vx` whose three bytes lie in memory stores the decimal digits of V[X], most significant first, and nothing else
(R265; 0 gives three zeros, decision D29). -/
def Obligations.BcdStoresThreeDigits : Prop :=
  ∀ (x : Reg) (s : State), s.i.toNat + 2 ≤ 0xFFF →
    ∃ t, exec (.ldB x) s = .next t ∧
      Normal { stored := [s.i.toNat, s.i.toNat + 1, s.i.toNat + 2] } s t ∧ t.pc = s.pc + 2 ∧
      (∀ k < 3, (Memory.read t.mem (s.i.toNat + k)).toNat ≤ 9) ∧
      (Memory.read t.mem s.i.toNat).toNat * 100 + (Memory.read t.mem (s.i.toNat + 1)).toNat * 10
        + (Memory.read t.mem (s.i.toNat + 2)).toNat = (s.reg x).toNat

/-- `LD [I], Vx` whose bytes lie in memory stores V0 to VX from I on, and nothing else; I moves by X + 1 iff the quirk is
on (R266, R268; the quirk is open, decision D17). -/
def Obligations.BulkStoreWritesRegisters : Prop :=
  ∀ (x : Reg) (s : State), s.i.toNat + x.val ≤ 0xFFF →
    ∃ t, exec (.storeRegs x) s = .next t ∧
      Normal { stored := (List.range (x.val + 1)).map (s.i.toNat + ·), index := true } s t ∧ t.pc = s.pc + 2 ∧
      (∀ r : Reg, r ≤ x → Memory.read t.mem (s.i.toNat + r.val) = s.reg r) ∧
      t.i.toNat = if Config.indexAutoInc then s.i.toNat + x.val + 1 else s.i.toNat

/-- `LD Vx, [I]` whose bytes lie in memory loads V0 to VX from I on, and nothing else; I moves by X + 1 iff the quirk is on
(R267, R268; the quirk is open, decision D17). -/
def Obligations.BulkLoadReadsRegisters : Prop :=
  ∀ (x : Reg) (s : State), s.i.toNat + x.val ≤ 0xFFF →
    ∃ t, exec (.loadRegs x) s = .next t ∧
      Normal { regs := (List.finRange 16).filter (· ≤ x), index := true } s t ∧ t.pc = s.pc + 2 ∧
      (∀ r : Reg, r ≤ x → t.reg r = Memory.read s.mem (s.i.toNat + r.val)) ∧
      t.i.toNat = if Config.indexAutoInc then s.i.toNat + x.val + 1 else s.i.toNat

/-- A bulk load, from any state with the memory a bulk store left and the I it started from, restores V0 to VX (the example
of R267). -/
def Obligations.BulkLoadUndoesBulkStore : Prop :=
  ∀ (x : Reg) (s t u : State), s.i.toNat + x.val ≤ 0xFFF → exec (.storeRegs x) s = .next t →
    u.mem = t.mem → u.i = s.i →
    ∃ w, exec (.loadRegs x) u = .next w ∧ (∀ r : Reg, r ≤ x → w.reg r = s.reg r) ∧
      (∀ r : Reg, x < r → w.reg r = u.reg r)

/-- A bulk store over the next instruction is seen by its fetch, with no fence or delay (20_memory.md R85; decision
D34). -/
def Obligations.StoreIsSeenByNextFetch : Prop :=
  ∀ (x : Reg) (s : State), 1 ≤ x.val → s.i = s.pc + 2 → s.i.toNat + x.val ≤ 0xFFF →
    ∃ t w, exec (.storeRegs x) s = .next t ∧ t.fetch = some w ∧ w.toNat = (s.reg 0).toNat * 256 + (s.reg 1).toNat

/-! ## Keys and timers (spec/45_keys_timers.md) -/

/-- `SKP Vx` and `SKNP Vx` skip on the held flag of the key V[X] names, for a value up to 15 (R290, R291). -/
def Obligations.KeySkipsTestHeldFlag : Prop :=
  ∀ (x : Reg) (k : Key) (s : State), (s.reg x).toNat = k.val →
    (∃ t, exec (.skp x) s = .next t ∧ Normal {} s t ∧ t.pc = if s.held[k.val] = true then s.pc + 4 else s.pc + 2) ∧
    (∃ t, exec (.sknp x) s = .next t ∧ Normal {} s t ∧ t.pc = if s.held[k.val] = false then s.pc + 4 else s.pc + 2)

/-- `LD Vx, K` with no key pressed leaves everything, PC included, as it was; with one pressed it stores the code of a
pressed key, and goes on (R294, R295). -/
def Obligations.AwaitKeyWaitsOrStoresPressedKey : Prop :=
  ∀ (x : Reg) (s : State),
    ((∀ k : Key, s.pressed[k.val] = false) → exec (.ldVxK x) s = .next s) ∧
    ((∃ k : Key, s.pressed[k.val] = true) →
      ∃ t, exec (.ldVxK x) s = .next t ∧ Normal { regs := [x], draws := true } s t ∧ t.pc = s.pc + 2 ∧
        ∃ k : Key, s.pressed[k.val] = true ∧ (t.reg x).toNat = k.val)

/-- Every pressed key is stored by some choice: the model shuts out none (R295; decision D27). -/
def Obligations.AwaitKeyAdmitsEveryPressedKey : Prop :=
  ∀ (x : Reg) (s : State) (k : Key), s.pressed[k.val] = true →
    ∃ choice, ((s.awaitKey choice x).reg x).toNat = k.val

/-- `LD Vx, K` never writes DT (R296). -/
def Obligations.AwaitKeyNeverWritesDelayTimer : Prop :=
  ∀ (x : Reg) (s t : State), exec (.ldVxK x) s = .next t → t.dt = s.dt

/-- `LD DT, Vx` writes DT alone; n ticks later DT is down by n, stopping at 0, and it does not reload (R297). -/
def Obligations.DelayTimerWriteSetsDelayTimer : Prop :=
  ∀ (x : Reg) (s : State),
    ∃ t, exec (.ldDtVx x) s = .next t ∧ Normal { delay := true } s t ∧ t.pc = s.pc + 2 ∧ t.dt = s.reg x ∧
      ∀ n, (State.tick^[n] t).dt.toNat = (s.reg x).toNat - n

/-- `LD ST, Vx` writes ST alone; n ticks later ST is down by n, stopping at 0. No instruction reads ST back: two states that
differ in ST alone give the same next state but for ST, which only `LD ST, Vx` writes (R298). -/
def Obligations.SoundTimerIsWrittenAndNeverRead : Prop :=
  (∀ (x : Reg) (s : State),
    ∃ t, exec (.ldStVx x) s = .next t ∧ Normal { sound := true } s t ∧ t.pc = s.pc + 2 ∧ t.st = s.reg x ∧
      ∀ n, (State.tick^[n] t).st.toNat = (s.reg x).toNat - n) ∧
  (∀ (i : Instr) (s t : State) (b : Byte), exec i s = .next t →
    exec i { s with st := b } = .next { t with st := if (∃ x, i = .ldStVx x) then t.st else b })

/-- `LD Vx, DT` reads the delay timer as the latest tick or write left it (R293, which the spec derives). -/
def Obligations.TimerReadLoadsDelayTimer : Prop :=
  ∀ (x : Reg) (s : State),
    ∃ t, exec (.ldVxDt x) s = .next t ∧ Normal { regs := [x] } s t ∧ t.pc = s.pc + 2 ∧ t.reg x = s.dt

/-! ## The whole instruction set -/

/-- Every instruction, in every state where it raises no fault of its own, completes: it leaves PC where R38 says and writes
only what its footprint lists (10_state.md R32, R36, R38, R41, R42; 20_memory.md R73). -/
def Obligations.EveryInstructionCompletesInItsFootprint : Prop :=
  ∀ (i : Instr) (s : State), ownFault s i = none →
    ∃ t, exec i s = .next t ∧ Normal (footprint s i) s t ∧ t.pc = pcAfter s i

/-- Every instruction, in every state where it raises a fault of its own, takes that fault and changes nothing else
(60_exceptions.md R322 to R325; decisions D5, D6, D26). -/
def Obligations.EveryOwnFaultIsTaken : Prop :=
  ∀ (i : Instr) (s : State) (c : FaultCause) (info : Option (BitVec 17)), ownFault s i = some (c, info) →
    exec i s = .next (faulted s c (some (encode i)) info)

/-- What an instruction changes leaves every part of the state its footprint does not list as it was, whether it completes,
waits or takes a fault. -/
def Obligations.EveryInstructionKeepsItsFrame : Prop :=
  ∀ (i : Instr) (s t : State), exec i s = .next t → Keeps (footprint s i) s t

/-! ## Invariants -/

/-- Every step keeps the invariant: memory canonical, stack bounded, return addresses and PC bounded, status and record in
agreement, the bitmap the one presented last. -/
def Obligations.StepKeepsInvariant : Prop := ∀ s t : State, Inv s → step s = .next t → Inv t

/-- The invariant holds after reset. -/
def Obligations.ResetMeetsInvariant : Prop := Inv State.reset

/-- After reset the registers, I, the stack, the timers, the bitmap and the keypad are zero, empty or false, PC is 0x200, and
the core runs (10_state.md R34, R53, 70_reset_and_hazards.md R370; PC, I, the stack, the timers and the keypad are the
spec's decision D39). -/
def Obligations.ResetLeavesStatedValues : Prop :=
  (∀ r : Reg, State.reset.reg r = 0) ∧ State.reset.i = 0 ∧ State.reset.pc = 0x200 ∧ State.reset.stack = [] ∧
  State.reset.dt = 0 ∧ State.reset.st = 0 ∧ (∀ px py, Bitmap.pixel State.reset.fb px py = false) ∧
  (∀ k : Key, State.reset.held[k.val] = false ∧ State.reset.pressed[k.val] = false) ∧
  State.reset.fault = none ∧ State.reset.run = .running

/-- Reset with an image of at most 3584 bytes places it verbatim at 0x200 over the font and zeros, and leaves every other
part as after reset; a missing or longer image gives no state (70_reset_and_hazards.md R370 to R372; decisions D32,
D39). -/
def Obligations.ResetPlacesImageVerbatim : Prop :=
  (∀ bytes : List Byte, bytes.length ≤ 3584 →
    ∃ s, State.resetWith (some bytes) = some s ∧ Inv s ∧ s = { State.reset with mem := s.mem } ∧
      ∀ a < 4096, Memory.read s.mem a =
        if 0x200 ≤ a ∧ a < 0x200 + bytes.length then bytes.getD (a - 0x200) 0
        else if 0x50 ≤ a ∧ a < 0xA0 then Config.font.getD (a - 0x50) 0
        else 0) ∧
  (∀ bytes : List Byte, 3584 < bytes.length → State.resetWith (some bytes) = none) ∧
  State.resetWith none = none
end

