-- ==== Sys2Proof/Laws/Display.lean ====
section
/-! SUPPORT. The laws of the bitmap and of the blitter: one pixel after a flip, and what drawing one bit, one byte and a
whole sprite leaves at each pixel and in the collision flag. -/

namespace Sys2Proof.Machine

@[simp] theorem Bitmap.pixel_clear (x y : Nat) : Bitmap.pixel Bitmap.clear x y = false := by
  simp [Bitmap.pixel, Bitmap.clear]

theorem Bitmap.pixel_outside (fb : Bitmap) {x y : Nat} (h : ¬(x < Config.screenW ∧ y < Config.screenH)) :
    Bitmap.pixel fb x y = false := by
  rw [Bitmap.pixel, dif_neg h]

/-- A pixel after a flip. -/
theorem Bitmap.pixel_flip (fb : Bitmap) (x y px py : Nat) :
    Bitmap.pixel (Bitmap.flip fb x y) px py =
      if px = x ∧ py = y ∧ x < Config.screenW ∧ y < Config.screenH then !Bitmap.pixel fb px py
      else Bitmap.pixel fb px py := by
  by_cases hin : x < Config.screenW ∧ y < Config.screenH
  · by_cases hp : px < Config.screenW ∧ py < Config.screenH
    · simp only [Bitmap.pixel, Bitmap.flip, dif_pos hin, dif_pos hp, Vector.getElem_set]
      by_cases hy : y = py
      · subst hy
        by_cases hx : x = px
        · subst hx; simp [hin]
        · simp [hx, Ne.symm hx]
      · simp [hy, Ne.symm hy]
    · rw [Bitmap.pixel_outside _ hp, Bitmap.pixel_outside _ hp, if_neg]
      rintro ⟨rfl, rfl, h⟩
      exact hp h
  · rw [Bitmap.flip, dif_neg hin, if_neg fun h => hin h.2.2]

/-- Bitmaps with equal pixels are equal. -/
theorem Bitmap.ext_pixel {fb fb' : Bitmap}
    (h : ∀ x y, x < Config.screenW → y < Config.screenH → Bitmap.pixel fb x y = Bitmap.pixel fb' x y) : fb = fb' := by
  apply Vector.ext
  intro y hy
  apply Vector.ext
  intro x hx
  have := h x y hx hy
  simpa [Bitmap.pixel, hx, hy] using this

/-- What one sprite bit does to each pixel. -/
theorem plotBit_pixel (c : Canvas) (x y : Nat) (bit : Bool) (px py : Nat) :
    Bitmap.pixel (plotBit c x y bit).fb px py =
      (Bitmap.pixel c.fb px py ^^
        (bit && decide (px = x ∧ py = y ∧ px < Config.screenW ∧ py < Config.screenH))) := by
  unfold plotBit
  by_cases h : (bit && decide (x < Config.screenW) && decide (y < Config.screenH)) = true
  · simp only [Bool.and_eq_true, decide_eq_true_eq] at h
    obtain ⟨⟨hb, hx⟩, hy⟩ := h
    rw [if_pos (by simp [hb, hx, hy])]
    simp only [Bitmap.pixel_flip, hb]
    by_cases he : px = x ∧ py = y
    · obtain ⟨rfl, rfl⟩ := he; simp [hx, hy]
    · rw [if_neg (by tauto), decide_eq_false (by tauto)]; simp
  · rw [if_neg h]
    simp only [Bool.and_eq_true, decide_eq_true_eq] at h
    cases bit with
    | false => simp
    | true =>
      rw [decide_eq_false]
      · simp
      · rintro ⟨rfl, rfl, h1, h2⟩; exact h ⟨⟨rfl, h1⟩, h2⟩

/-- What one sprite bit does to the collision flag. -/
theorem plotBit_hit (c : Canvas) (x y : Nat) (bit : Bool) :
    (plotBit c x y bit).hit = (c.hit || (bit && Bitmap.pixel c.fb x y)) := by
  unfold plotBit
  by_cases h : x < Config.screenW ∧ y < Config.screenH
  · cases bit <;> simp [h]
  · rw [Bitmap.pixel_outside _ h, if_neg]
    · simp
    · simp only [Bool.and_eq_true, decide_eq_true_eq]; tauto

/-- One sprite byte drawn over the columns `ks`, which are distinct. -/
theorem drawColumns (x y : Nat) (b : Byte) (ks : List Nat) (hks : ks.Nodup) (c : Canvas) :
    (∀ px py, Bitmap.pixel (ks.foldl (fun c k => plotBit c (x + k) y (b.getLsbD (7 - k))) c).fb px py =
      (Bitmap.pixel c.fb px py ^^ decide (px < Config.screenW ∧ py < Config.screenH ∧ py = y ∧
        ∃ k ∈ ks, px = x + k ∧ b.getLsbD (7 - k) = true))) ∧
    ((ks.foldl (fun c k => plotBit c (x + k) y (b.getLsbD (7 - k))) c).hit = true ↔
      c.hit = true ∨ ∃ k ∈ ks, b.getLsbD (7 - k) = true ∧ Bitmap.pixel c.fb (x + k) y = true) := by
  induction ks generalizing c with
  | nil => simp
  | cons k ks ih =>
    obtain ⟨hk, hks⟩ := List.nodup_cons.1 hks
    obtain ⟨ihp, ihh⟩ := ih hks (plotBit c (x + k) y (b.getLsbD (7 - k)))
    constructor
    · intro px py
      rw [List.foldl_cons, ihp, plotBit_pixel]
      rw [Bool.xor_assoc]
      congr 1
      by_cases hp : px = x + k
      · subst hp
        have hks' : ∀ k' ∈ ks, k ≠ k' := fun k' hk' he => hk (he ▸ hk')
        have hnone : ¬∃ k' ∈ ks, x + k = x + k' ∧ b.getLsbD (7 - k') = true := by
          rintro ⟨k', hk', he, -⟩
          exact hks' k' hk' (Nat.add_left_cancel he)
        have hone : (∃ k' ∈ k :: ks, x + k = x + k' ∧ b.getLsbD (7 - k') = true) ↔ b.getLsbD (7 - k) = true := by
          simp only [List.mem_cons, exists_eq_or_imp, true_and]
          exact or_iff_left hnone
        rw [decide_eq_false (p := x + k < Config.screenW ∧ _) fun h => hnone h.2.2.2, Bool.xor_false]
        apply Bool.eq_iff_iff.2
        simp only [Bool.and_eq_true, decide_eq_true_eq, true_and, hone]
        tauto
      · rw [decide_eq_false fun h => hp h.1, Bool.and_false, Bool.false_xor]
        apply decide_eq_decide.2
        simp only [List.mem_cons, exists_eq_or_imp, hp, false_and, false_or]
    · rw [List.foldl_cons, ihh, plotBit_hit]
      have hp : ∀ k' ∈ ks, Bitmap.pixel (plotBit c (x + k) y (b.getLsbD (7 - k))).fb (x + k') y =
          Bitmap.pixel c.fb (x + k') y := by
        intro k' hk'
        rw [plotBit_pixel, decide_eq_false]
        · simp
        · rintro ⟨h, -⟩
          exact hk ((Nat.add_left_cancel h) ▸ hk')
      simp only [Bool.or_eq_true, Bool.and_eq_true, List.mem_cons, exists_eq_or_imp]
      rw [or_assoc]
      refine or_congr Iff.rfl (or_congr Iff.rfl ?_)
      constructor
      · rintro ⟨k', hk', h1, h2⟩; exact ⟨k', hk', h1, hp k' hk' ▸ h2⟩
      · rintro ⟨k', hk', h1, h2⟩; exact ⟨k', hk', h1, (hp k' hk').symm ▸ h2⟩

/-- What one sprite byte does to each pixel. -/
theorem drawByte_pixel (c : Canvas) (x y : Nat) (b : Byte) (px py : Nat) :
    Bitmap.pixel (drawByte c x y b).fb px py =
      (Bitmap.pixel c.fb px py ^^ decide (px < Config.screenW ∧ py < Config.screenH ∧ py = y ∧ x ≤ px ∧ px < x + 8 ∧
        b.getLsbD (7 - (px - x)) = true)) := by
  rw [drawByte, (drawColumns x y b (List.range 8) List.nodup_range c).1]
  congr 1
  apply decide_eq_decide.2
  constructor
  · rintro ⟨h1, h2, h3, k, hk, rfl, hb⟩
    rw [List.mem_range] at hk
    exact ⟨h1, h2, h3, by omega, by omega, by rwa [Nat.add_sub_cancel_left]⟩
  · rintro ⟨h1, h2, h3, h4, h5, hb⟩
    exact ⟨h1, h2, h3, px - x, by rw [List.mem_range]; omega, by omega, hb⟩

/-- What one sprite byte does to the collision flag. -/
theorem drawByte_hit (c : Canvas) (x y : Nat) (b : Byte) :
    (drawByte c x y b).hit = true ↔
      c.hit = true ∨ ∃ k < 8, b.getLsbD (7 - k) = true ∧ Bitmap.pixel c.fb (x + k) y = true := by
  rw [drawByte, (drawColumns x y b (List.range 8) List.nodup_range c).2]
  simp

/-- What a whole sprite does to each pixel. -/
theorem drawBytes_pixel (bs : List Byte) (c : Canvas) (x y px py : Nat) :
    Bitmap.pixel (drawBytes c x y bs).fb px py =
      (Bitmap.pixel c.fb px py ^^ decide (px < Config.screenW ∧ py < Config.screenH ∧ y ≤ py ∧ py < y + bs.length ∧
        x ≤ px ∧ px < x + 8 ∧ (bs.getD (py - y) 0).getLsbD (7 - (px - x)) = true)) := by
  induction bs generalizing c y with
  | nil => simp [drawBytes]
  | cons b bs ih =>
    rw [drawBytes, ih, drawByte_pixel, Bool.xor_assoc]
    congr 1
    by_cases hy : py = y
    · subst hy
      rw [decide_eq_false (p := px < Config.screenW ∧ py < Config.screenH ∧ py + 1 ≤ py ∧ _) (by omega)]
      simp
    · rw [decide_eq_false (p := px < Config.screenW ∧ py < Config.screenH ∧ py = y ∧ _) (by tauto), Bool.false_xor]
      apply decide_eq_decide.2
      rw [List.length_cons]
      by_cases hy' : y + 1 ≤ py
      · have : py - y = (py - (y + 1)) + 1 := by omega
        rw [this, List.getD_cons_succ]
        constructor <;> (rintro ⟨h1, h2, h3, h4, h5⟩; exact ⟨h1, h2, by omega, by omega, h5⟩)
      · constructor <;> (rintro ⟨h1, h2, h3, h4, h5⟩; omega)

/-- What a whole sprite does to the collision flag: a set sprite bit meets a set pixel of the bitmap it was drawn on. -/
theorem drawBytes_hit (bs : List Byte) (c : Canvas) (x y : Nat) :
    (drawBytes c x y bs).hit = true ↔
      c.hit = true ∨ ∃ r < bs.length, ∃ k < 8,
        (bs.getD r 0).getLsbD (7 - k) = true ∧ Bitmap.pixel c.fb (x + k) (y + r) = true := by
  induction bs generalizing c y with
  | nil => simp [drawBytes]
  | cons b bs ih =>
    rw [drawBytes, ih, drawByte_hit, or_assoc]
    refine or_congr Iff.rfl ?_
    have hp : ∀ r k, Bitmap.pixel (drawByte c x y b).fb (x + k) (y + 1 + r) =
        Bitmap.pixel c.fb (x + k) (y + 1 + r) := by
      intro r k
      rw [drawByte_pixel, decide_eq_false]
      · simp
      · rintro ⟨_, _, h, _⟩; omega
    constructor
    · rintro (⟨k, hk, h1, h2⟩ | ⟨r, hr, k, hk, h1, h2⟩)
      · exact ⟨0, by simp, k, hk, by simpa using h1, by simpa using h2⟩
      · refine ⟨r + 1, by simpa using hr, k, hk, by simpa using h1, ?_⟩
        rw [hp] at h2
        rwa [show y + (r + 1) = y + 1 + r by omega]
    · rintro ⟨r, hr, k, hk, h1, h2⟩
      cases r with
      | zero => exact .inl ⟨k, hk, by simpa using h1, by simpa using h2⟩
      | succ r =>
        refine .inr ⟨r, by simpa using hr, k, hk, by simpa using h1, ?_⟩
        rw [hp, show y + 1 + r = y + (r + 1) by omega]
        exact h2

end Sys2Proof.Machine
end

