-- ==== Sys2Proof/Laws/Encoding.lean ====
section
/-! SUPPORT. The fields a decoder finds in a word an encoder built, one lemma per format of spec/30_encoding.md R102, and
the two bytes of a word. -/

namespace Sys2Proof

/-- The fields of a format `A` word. -/
theorem decodeFields_encodeA (op : Nibble) (nnn : Addr12) :
    (decodeFields (encodeA op nnn)).op = op ∧ (decodeFields (encodeA op nnn)).nnn = nnn := by
  constructor
  all_goals
    apply BitVec.eq_of_getLsbD_eq
    intro i hi
    simp only [decodeFields, encodeA]
    interval_cases i <;> simp

/-- The fields of a format `RB` or `RS` word. -/
theorem decodeFields_encodeRB (op : Nibble) (x : Reg) (nn : Byte) :
    (decodeFields (encodeRB op x nn)).op = op ∧ (decodeFields (encodeRB op x nn)).x = x ∧
      (decodeFields (encodeRB op x nn)).nn = nn := by
  refine ⟨?_, ?_, ?_⟩
  · apply BitVec.eq_of_getLsbD_eq
    intro i hi
    simp only [decodeFields, encodeRB]
    interval_cases i <;> simp
  · have h : (encodeRB op x nn).extractLsb' 8 4 = regField x := by
      apply BitVec.eq_of_getLsbD_eq
      intro i hi
      simp only [encodeRB]
      interval_cases i <;> simp
    exact congrArg BitVec.toFin h
  · apply BitVec.eq_of_getLsbD_eq
    intro i hi
    simp only [decodeFields, encodeRB]
    interval_cases i <;> simp

/-- The fields of a format `RR` or `RRN` word. -/
theorem decodeFields_encodeRR (op : Nibble) (x y : Reg) (n : Nibble) :
    (decodeFields (encodeRR op x y n)).op = op ∧ (decodeFields (encodeRR op x y n)).x = x ∧
      (decodeFields (encodeRR op x y n)).y = y ∧ (decodeFields (encodeRR op x y n)).n = n := by
  refine ⟨?_, ?_, ?_, ?_⟩
  · apply BitVec.eq_of_getLsbD_eq
    intro i hi
    simp only [decodeFields, encodeRR]
    interval_cases i <;> simp
  · have h : (encodeRR op x y n).extractLsb' 8 4 = regField x := by
      apply BitVec.eq_of_getLsbD_eq
      intro i hi
      simp only [encodeRR]
      interval_cases i <;> simp
    exact congrArg BitVec.toFin h
  · have h : (encodeRR op x y n).extractLsb' 4 4 = regField y := by
      apply BitVec.eq_of_getLsbD_eq
      intro i hi
      simp only [encodeRR]
      interval_cases i <;> simp
    exact congrArg BitVec.toFin h
  · apply BitVec.eq_of_getLsbD_eq
    intro i hi
    simp only [decodeFields, encodeRR]
    interval_cases i <;> simp

/-- The fields of a format `A` word, as one record. -/
theorem exists_decodeFields_encodeA (op : Nibble) (nnn : Addr12) :
    ∃ x y n nn, decodeFields (encodeA op nnn) = { op := op, x := x, y := y, n := n, nn := nn, nnn := nnn } := by
  obtain ⟨h1, h2⟩ := decodeFields_encodeA op nnn
  generalize decodeFields (encodeA op nnn) = f at *
  subst h1 h2
  exact ⟨f.x, f.y, f.n, f.nn, rfl⟩

/-- The fields of a format `RB` or `RS` word, as one record. -/
theorem exists_decodeFields_encodeRB (op : Nibble) (x : Reg) (nn : Byte) :
    ∃ y n nnn, decodeFields (encodeRB op x nn) = { op := op, x := x, y := y, n := n, nn := nn, nnn := nnn } := by
  obtain ⟨h1, h2, h3⟩ := decodeFields_encodeRB op x nn
  generalize decodeFields (encodeRB op x nn) = f at *
  subst h1 h2 h3
  exact ⟨f.y, f.n, f.nnn, rfl⟩

/-- The fields of a format `RR` or `RRN` word, as one record. -/
theorem exists_decodeFields_encodeRR (op : Nibble) (x y : Reg) (n : Nibble) :
    ∃ nn nnn, decodeFields (encodeRR op x y n) = { op := op, x := x, y := y, n := n, nn := nn, nnn := nnn } := by
  obtain ⟨h1, h2, h3, h4⟩ := decodeFields_encodeRR op x y n
  generalize decodeFields (encodeRR op x y n) = f at *
  subst h1 h2 h3 h4
  exact ⟨f.nn, f.nnn, rfl⟩

/-- The top nibble of a word, as a number. -/
theorem decodeFields_op_toNat (w : Word) : (decodeFields w).op.toNat = w.toNat / 0x1000 := by
  have := w.isLt
  simp [decodeFields, Nat.shiftRight_eq_div_pow]
  omega

/-- The low nibble of a word, as a number. -/
theorem decodeFields_n_toNat (w : Word) : (decodeFields w).n.toNat = w.toNat % 0x10 := by
  simp [decodeFields]

/-- The top nibble of a word built by an encoder. -/
theorem encodeA_top (op : Nibble) (nnn : Addr12) : (encodeA op nnn).toNat / 0x1000 = op.toNat := by
  rw [← decodeFields_op_toNat, (decodeFields_encodeA op nnn).1]

theorem encodeRB_top (op : Nibble) (x : Reg) (nn : Byte) : (encodeRB op x nn).toNat / 0x1000 = op.toNat := by
  rw [← decodeFields_op_toNat, (decodeFields_encodeRB op x nn).1]

theorem encodeRR_top (op : Nibble) (x y : Reg) (n : Nibble) : (encodeRR op x y n).toNat / 0x1000 = op.toNat := by
  rw [← decodeFields_op_toNat, (decodeFields_encodeRR op x y n).1]

/-- The low nibble of a word built by an encoder. -/
theorem encodeRR_low (op : Nibble) (x y : Reg) (n : Nibble) : (encodeRR op x y n).toNat % 0x10 = n.toNat := by
  rw [← decodeFields_n_toNat, (decodeFields_encodeRR op x y n).2.2.2]

/-- The word decodes to what its fields select. -/
theorem decodeWord_of_select {w : Word} {i : Instr} (h : selectInstr (decodeFields w) = some i) :
    decodeWord w = .ok i := by
  rw [decodeWord, h]

/-- What a decoded word's fields select. -/
theorem select_of_decodeWord {w : Word} {i : Instr} (h : decodeWord w = .ok i) :
    selectInstr (decodeFields w) = some i := by
  unfold decodeWord at h
  split at h
  next h' => rw [h']; simpa using h
  next => simp at h

/-- A word is its class and its address field (R101). -/
theorem word_of_op_nnn (w : Word) : encodeA (decodeFields w).op (decodeFields w).nnn = w := by
  apply BitVec.eq_of_getLsbD_eq
  intro i hi
  simp only [decodeFields, encodeA]
  interval_cases i <;> simp

/-- A word is its class, its X and its byte (R101). -/
theorem word_of_op_x_nn (w : Word) : encodeRB (decodeFields w).op (decodeFields w).x (decodeFields w).nn = w := by
  apply BitVec.eq_of_getLsbD_eq
  intro i hi
  simp only [decodeFields, encodeRB, regField, BitVec.ofFin_toFin]
  interval_cases i <;> simp

/-- A word is its four nibbles (R101). -/
theorem word_of_op_x_y_n (w : Word) :
    encodeRR (decodeFields w).op (decodeFields w).x (decodeFields w).y (decodeFields w).n = w := by
  apply BitVec.eq_of_getLsbD_eq
  intro i hi
  simp only [decodeFields, encodeRR, regField, BitVec.ofFin_toFin]
  interval_cases i <;> simp

/-- The two bytes of a word, laid out and read back (20_memory.md R71). -/
theorem wordOfBytes_high_low (w : Word) : wordOfBytes (highByte w) (lowByte w) = w := by
  apply BitVec.eq_of_getLsbD_eq
  intro i hi
  simp only [wordOfBytes, highByte, lowByte]
  interval_cases i <;> simp

end Sys2Proof
end

