-- ==== Sys2Proof/Laws/Memory.lean ====
section
/-! SUPPORT. The laws of memory: what a read after a write gives, for one byte and for blocks, and that every operation
keeps the canonical form. -/

namespace Sys2Proof.Machine

theorem Memory.read_insert_same (a : Nat) (b : Byte) (m : Memory) (h : ∀ c ∈ m, c.1 ≠ a) :
    Memory.read (Memory.insert (a, b) m) a = b := by
  induction m with
  | nil => simp [Memory.insert, Memory.read]
  | cons c m ih =>
    unfold Memory.insert
    split
    · simp [Memory.read]
    · simp [Memory.read, h c (by simp), ih fun c hc => h c (by simp [hc])]

theorem Memory.read_insert_other {a a' : Nat} (b : Byte) (m : Memory) (h : a' ≠ a) :
    Memory.read (Memory.insert (a, b) m) a' = Memory.read m a' := by
  induction m with
  | nil => simp [Memory.insert, Memory.read, h.symm]
  | cons c m ih =>
    unfold Memory.insert
    split
    · simp [Memory.read, h.symm]
    · simp [Memory.read, ih]

theorem Memory.read_filter_same (m : Memory) (a : Nat) :
    Memory.read (m.filter fun c => c.1 != a) a = Memory.unlisted a := by
  induction m with
  | nil => rfl
  | cons c m ih => by_cases h : c.1 = a <;> simp [Memory.read, h, ih]

theorem Memory.read_filter_other (m : Memory) {a a' : Nat} (h : a' ≠ a) :
    Memory.read (m.filter fun c => c.1 != a) a' = Memory.read m a' := by
  induction m with
  | nil => rfl
  | cons c m ih =>
    by_cases hc : c.1 = a
    · simp [Memory.read, hc, ih, h.symm]
    · simp [Memory.read, hc, ih]

/-- Reading any address after writing one in memory. -/
theorem Memory.read_write (m : Memory) {a : Nat} (b : Byte) (a' : Nat) (ha : a < Config.memSize) :
    Memory.read (Memory.write m a b) a' = if a' = a then b else Memory.read m a' := by
  unfold Memory.write
  rw [if_pos ha]
  by_cases h : a' = a
  · subst h
    rw [if_pos rfl]
    split
    · simp [Memory.read_filter_same, *]
    · exact Memory.read_insert_same _ _ _ fun c hc => by simpa using (List.mem_filter.1 hc).2
  · rw [if_neg h]
    split
    · exact Memory.read_filter_other m h
    · rw [Memory.read_insert_other _ _ h, Memory.read_filter_other m h]

/-- Reading any address after writing a block that lies in memory. -/
theorem Memory.read_writeBytes (bs : List Byte) (m : Memory) (a a' : Nat) (h : a + bs.length ≤ Config.memSize) :
    Memory.read (Memory.writeBytes m a bs) a' =
      if a ≤ a' ∧ a' < a + bs.length then bs.getD (a' - a) 0 else Memory.read m a' := by
  induction bs generalizing m a with
  | nil => simp [Memory.writeBytes]
  | cons b bs ih =>
    rw [List.length_cons] at h
    rw [Memory.writeBytes, ih _ _ (by omega), Memory.read_write _ _ _ (by omega), List.length_cons]
    by_cases h1 : a' = a
    · subst h1; simp
    · by_cases h2 : a + 1 ≤ a' ∧ a' < a + 1 + bs.length
      · have h3 : a' - a = (a' - (a + 1)) + 1 := by omega
        rw [if_pos h2, if_pos (by omega), h3, List.getD_cons_succ]
      · rw [if_neg h2, if_neg h1, if_neg (by omega)]

@[simp] theorem Memory.readBytes_length (m : Memory) (a n : Nat) : (Memory.readBytes m a n).length = n := by
  induction n generalizing a with
  | zero => rfl
  | succ n ih => simp [Memory.readBytes, ih]

/-- The k-th byte of a block. -/
theorem Memory.readBytes_getD (m : Memory) (a n k : Nat) (h : k < n) :
    (Memory.readBytes m a n).getD k 0 = Memory.read m (a + k) := by
  induction n generalizing a k with
  | zero => omega
  | succ n ih =>
    cases k with
    | zero => simp [Memory.readBytes]
    | succ k => rw [Memory.readBytes, List.getD_cons_succ, ih _ _ (by omega)]; congr 1; omega

/-- Equal bytes make equal blocks. -/
theorem Memory.readBytes_congr {m m' : Memory} {a n : Nat}
    (h : ∀ k < n, Memory.read m (a + k) = Memory.read m' (a + k)) :
    Memory.readBytes m a n = Memory.readBytes m' a n := by
  induction n generalizing a with
  | zero => rfl
  | succ n ih =>
    rw [Memory.readBytes, Memory.readBytes, show Memory.read m a = Memory.read m' a from h 0 (by omega), ih]
    intro k hk
    have h' := h (k + 1) (by omega)
    rwa [Nat.add_comm k 1, ← Nat.add_assoc] at h'

theorem Memory.wf_cons {c : Host.Cell} {m : Memory} :
    Memory.wf (c :: m) = true ↔
      c.1 < Config.memSize ∧ c.2 ≠ Memory.unlisted c.1 ∧ Memory.below c.1 m = true ∧ Memory.wf m = true := by
  simp [Memory.wf, and_assoc]

theorem Memory.below_trans {a : Nat} {m : Memory} (h : Memory.wf m = true) (hb : Memory.below a m = true) :
    ∀ c ∈ m, a < c.1 := by
  induction m generalizing a with
  | nil => simp
  | cons d m ih =>
    obtain ⟨_, _, hd, hm⟩ := Memory.wf_cons.1 h
    have had : a < d.1 := by simpa [Memory.below] using hb
    intro c hc
    rcases List.mem_cons.1 hc with rfl | hc
    · exact had
    · exact had.trans (ih hm hd c hc)

theorem Memory.below_of_forall {a : Nat} {m : Memory} (h : ∀ c ∈ m, a < c.1) : Memory.below a m = true := by
  cases m with
  | nil => rfl
  | cons c m => simpa [Memory.below] using h c (by simp)

theorem Memory.wf_filter (p : Host.Cell → Bool) {m : Memory} (h : Memory.wf m = true) :
    Memory.wf (m.filter p) = true := by
  induction m with
  | nil => rfl
  | cons c m ih =>
    obtain ⟨h1, h2, h3, h4⟩ := Memory.wf_cons.1 h
    rw [List.filter_cons]
    split
    · refine Memory.wf_cons.2 ⟨h1, h2, Memory.below_of_forall fun d hd => ?_, ih h4⟩
      exact Memory.below_trans h4 h3 d (List.mem_filter.1 hd).1
    · exact ih h4

theorem Memory.mem_insert {c d : Host.Cell} {m : Memory} : d ∈ Memory.insert c m ↔ d = c ∨ d ∈ m := by
  induction m with
  | nil => simp [Memory.insert]
  | cons e m ih =>
    unfold Memory.insert
    split
    · simp
    · simp only [List.mem_cons, ih]; tauto

theorem Memory.wf_insert {c : Host.Cell} {m : Memory} (h : Memory.wf m = true) (hlt : c.1 < Config.memSize)
    (hne : c.2 ≠ Memory.unlisted c.1) (hfresh : ∀ d ∈ m, d.1 ≠ c.1) : Memory.wf (Memory.insert c m) = true := by
  induction m with
  | nil => exact Memory.wf_cons.2 ⟨hlt, hne, rfl, rfl⟩
  | cons d m ih =>
    obtain ⟨h1, h2, h3, h4⟩ := Memory.wf_cons.1 h
    have hd : d.1 ≠ c.1 := hfresh d (by simp)
    unfold Memory.insert
    split
    next hcd => exact Memory.wf_cons.2 ⟨hlt, hne, by simpa [Memory.below] using hcd, h⟩
    next hcd =>
      refine Memory.wf_cons.2 ⟨h1, h2, Memory.below_of_forall fun e he => ?_, ih h4 fun e he => hfresh e (by simp [he])⟩
      rcases Memory.mem_insert.1 he with rfl | he
      · omega
      · exact Memory.below_trans h4 h3 e he

/-- Writing a byte keeps the canonical form. -/
theorem Memory.wf_write {m : Memory} (h : Memory.wf m = true) (a : Nat) (b : Byte) :
    Memory.wf (Memory.write m a b) = true := by
  unfold Memory.write
  split
  next ha =>
    split
    · exact Memory.wf_filter _ h
    next hb =>
      exact Memory.wf_insert (Memory.wf_filter _ h) ha hb fun d hd => by simpa using (List.mem_filter.1 hd).2
  · exact h

/-- Writing a block keeps the canonical form. -/
theorem Memory.wf_writeBytes {m : Memory} (h : Memory.wf m = true) (a : Nat) (bs : List Byte) :
    Memory.wf (Memory.writeBytes m a bs) = true := by
  induction bs generalizing m a with
  | nil => exact h
  | cons b bs ih => exact ih (Memory.wf_write h a b) (a + 1)

/-- Memory after reset is in canonical form. -/
theorem Memory.wf_reset : Memory.wf State.reset.mem = true := rfl

end Sys2Proof.Machine
end

