-- ==== Sys2Proof/Laws/State.lean ====
section
/-! SUPPORT. One lemma per field per update of the state, true by unfolding, so that no proof unfolds a record update; then
the register accessor over every update. -/

namespace Sys2Proof.Machine

/-! `advance` -/

@[simp] theorem State.advance_mem (s : State) : (s.advance).mem = s.mem := rfl
@[simp] theorem State.advance_v (s : State) : (s.advance).v = s.v := rfl
@[simp] theorem State.advance_i (s : State) : (s.advance).i = s.i := rfl
@[simp] theorem State.advance_pc (s : State) : (s.advance).pc = s.pc + 2 := rfl
@[simp] theorem State.advance_stack (s : State) : (s.advance).stack = s.stack := rfl
@[simp] theorem State.advance_dt (s : State) : (s.advance).dt = s.dt := rfl
@[simp] theorem State.advance_st (s : State) : (s.advance).st = s.st := rfl
@[simp] theorem State.advance_fb (s : State) : (s.advance).fb = s.fb := rfl
@[simp] theorem State.advance_held (s : State) : (s.advance).held = s.held := rfl
@[simp] theorem State.advance_pressed (s : State) : (s.advance).pressed = s.pressed := rfl
@[simp] theorem State.advance_fault (s : State) : (s.advance).fault = s.fault := rfl
@[simp] theorem State.advance_run (s : State) : (s.advance).run = s.run := rfl
@[simp] theorem State.advance_presented (s : State) : (s.advance).presented = s.presented := rfl
@[simp] theorem State.advance_polls (s : State) : (s.advance).polls = s.polls := rfl
@[simp] theorem State.advance_schedule (s : State) : (s.advance).schedule = s.schedule := rfl
@[simp] theorem State.advance_draws (s : State) : (s.advance).draws = s.draws := rfl
@[simp] theorem State.advance_reg (s : State) (q : Reg) : (s.advance).reg q = s.reg q := rfl

/-! `setReg` -/

@[simp] theorem State.setReg_mem (s : State) (r : Reg) (b : Byte) : (s.setReg r b).mem = s.mem := rfl
@[simp] theorem State.setReg_v (s : State) (r : Reg) (b : Byte) : (s.setReg r b).v = s.v.set r.val b r.isLt := rfl
@[simp] theorem State.setReg_i (s : State) (r : Reg) (b : Byte) : (s.setReg r b).i = s.i := rfl
@[simp] theorem State.setReg_pc (s : State) (r : Reg) (b : Byte) : (s.setReg r b).pc = s.pc := rfl
@[simp] theorem State.setReg_stack (s : State) (r : Reg) (b : Byte) : (s.setReg r b).stack = s.stack := rfl
@[simp] theorem State.setReg_dt (s : State) (r : Reg) (b : Byte) : (s.setReg r b).dt = s.dt := rfl
@[simp] theorem State.setReg_st (s : State) (r : Reg) (b : Byte) : (s.setReg r b).st = s.st := rfl
@[simp] theorem State.setReg_fb (s : State) (r : Reg) (b : Byte) : (s.setReg r b).fb = s.fb := rfl
@[simp] theorem State.setReg_held (s : State) (r : Reg) (b : Byte) : (s.setReg r b).held = s.held := rfl
@[simp] theorem State.setReg_pressed (s : State) (r : Reg) (b : Byte) : (s.setReg r b).pressed = s.pressed := rfl
@[simp] theorem State.setReg_fault (s : State) (r : Reg) (b : Byte) : (s.setReg r b).fault = s.fault := rfl
@[simp] theorem State.setReg_run (s : State) (r : Reg) (b : Byte) : (s.setReg r b).run = s.run := rfl
@[simp] theorem State.setReg_presented (s : State) (r : Reg) (b : Byte) : (s.setReg r b).presented = s.presented := rfl
@[simp] theorem State.setReg_polls (s : State) (r : Reg) (b : Byte) : (s.setReg r b).polls = s.polls := rfl
@[simp] theorem State.setReg_schedule (s : State) (r : Reg) (b : Byte) : (s.setReg r b).schedule = s.schedule := rfl
@[simp] theorem State.setReg_draws (s : State) (r : Reg) (b : Byte) : (s.setReg r b).draws = s.draws := rfl

/-! `setI` -/

@[simp] theorem State.setI_mem (s : State) (a : Word) : (s.setI a).mem = s.mem := rfl
@[simp] theorem State.setI_v (s : State) (a : Word) : (s.setI a).v = s.v := rfl
@[simp] theorem State.setI_i (s : State) (a : Word) : (s.setI a).i = a := rfl
@[simp] theorem State.setI_pc (s : State) (a : Word) : (s.setI a).pc = s.pc := rfl
@[simp] theorem State.setI_stack (s : State) (a : Word) : (s.setI a).stack = s.stack := rfl
@[simp] theorem State.setI_dt (s : State) (a : Word) : (s.setI a).dt = s.dt := rfl
@[simp] theorem State.setI_st (s : State) (a : Word) : (s.setI a).st = s.st := rfl
@[simp] theorem State.setI_fb (s : State) (a : Word) : (s.setI a).fb = s.fb := rfl
@[simp] theorem State.setI_held (s : State) (a : Word) : (s.setI a).held = s.held := rfl
@[simp] theorem State.setI_pressed (s : State) (a : Word) : (s.setI a).pressed = s.pressed := rfl
@[simp] theorem State.setI_fault (s : State) (a : Word) : (s.setI a).fault = s.fault := rfl
@[simp] theorem State.setI_run (s : State) (a : Word) : (s.setI a).run = s.run := rfl
@[simp] theorem State.setI_presented (s : State) (a : Word) : (s.setI a).presented = s.presented := rfl
@[simp] theorem State.setI_polls (s : State) (a : Word) : (s.setI a).polls = s.polls := rfl
@[simp] theorem State.setI_schedule (s : State) (a : Word) : (s.setI a).schedule = s.schedule := rfl
@[simp] theorem State.setI_draws (s : State) (a : Word) : (s.setI a).draws = s.draws := rfl
@[simp] theorem State.setI_reg (s : State) (a : Word) (q : Reg) : (s.setI a).reg q = s.reg q := rfl

/-! `setPc` -/

@[simp] theorem State.setPc_mem (s : State) (a : Word) : (s.setPc a).mem = s.mem := rfl
@[simp] theorem State.setPc_v (s : State) (a : Word) : (s.setPc a).v = s.v := rfl
@[simp] theorem State.setPc_i (s : State) (a : Word) : (s.setPc a).i = s.i := rfl
@[simp] theorem State.setPc_pc (s : State) (a : Word) : (s.setPc a).pc = a := rfl
@[simp] theorem State.setPc_stack (s : State) (a : Word) : (s.setPc a).stack = s.stack := rfl
@[simp] theorem State.setPc_dt (s : State) (a : Word) : (s.setPc a).dt = s.dt := rfl
@[simp] theorem State.setPc_st (s : State) (a : Word) : (s.setPc a).st = s.st := rfl
@[simp] theorem State.setPc_fb (s : State) (a : Word) : (s.setPc a).fb = s.fb := rfl
@[simp] theorem State.setPc_held (s : State) (a : Word) : (s.setPc a).held = s.held := rfl
@[simp] theorem State.setPc_pressed (s : State) (a : Word) : (s.setPc a).pressed = s.pressed := rfl
@[simp] theorem State.setPc_fault (s : State) (a : Word) : (s.setPc a).fault = s.fault := rfl
@[simp] theorem State.setPc_run (s : State) (a : Word) : (s.setPc a).run = s.run := rfl
@[simp] theorem State.setPc_presented (s : State) (a : Word) : (s.setPc a).presented = s.presented := rfl
@[simp] theorem State.setPc_polls (s : State) (a : Word) : (s.setPc a).polls = s.polls := rfl
@[simp] theorem State.setPc_schedule (s : State) (a : Word) : (s.setPc a).schedule = s.schedule := rfl
@[simp] theorem State.setPc_draws (s : State) (a : Word) : (s.setPc a).draws = s.draws := rfl
@[simp] theorem State.setPc_reg (s : State) (a : Word) (q : Reg) : (s.setPc a).reg q = s.reg q := rfl

/-! `setDt` -/

@[simp] theorem State.setDt_mem (s : State) (b : Byte) : (s.setDt b).mem = s.mem := rfl
@[simp] theorem State.setDt_v (s : State) (b : Byte) : (s.setDt b).v = s.v := rfl
@[simp] theorem State.setDt_i (s : State) (b : Byte) : (s.setDt b).i = s.i := rfl
@[simp] theorem State.setDt_pc (s : State) (b : Byte) : (s.setDt b).pc = s.pc := rfl
@[simp] theorem State.setDt_stack (s : State) (b : Byte) : (s.setDt b).stack = s.stack := rfl
@[simp] theorem State.setDt_dt (s : State) (b : Byte) : (s.setDt b).dt = b := rfl
@[simp] theorem State.setDt_st (s : State) (b : Byte) : (s.setDt b).st = s.st := rfl
@[simp] theorem State.setDt_fb (s : State) (b : Byte) : (s.setDt b).fb = s.fb := rfl
@[simp] theorem State.setDt_held (s : State) (b : Byte) : (s.setDt b).held = s.held := rfl
@[simp] theorem State.setDt_pressed (s : State) (b : Byte) : (s.setDt b).pressed = s.pressed := rfl
@[simp] theorem State.setDt_fault (s : State) (b : Byte) : (s.setDt b).fault = s.fault := rfl
@[simp] theorem State.setDt_run (s : State) (b : Byte) : (s.setDt b).run = s.run := rfl
@[simp] theorem State.setDt_presented (s : State) (b : Byte) : (s.setDt b).presented = s.presented := rfl
@[simp] theorem State.setDt_polls (s : State) (b : Byte) : (s.setDt b).polls = s.polls := rfl
@[simp] theorem State.setDt_schedule (s : State) (b : Byte) : (s.setDt b).schedule = s.schedule := rfl
@[simp] theorem State.setDt_draws (s : State) (b : Byte) : (s.setDt b).draws = s.draws := rfl
@[simp] theorem State.setDt_reg (s : State) (b : Byte) (q : Reg) : (s.setDt b).reg q = s.reg q := rfl

/-! `setSt` -/

@[simp] theorem State.setSt_mem (s : State) (b : Byte) : (s.setSt b).mem = s.mem := rfl
@[simp] theorem State.setSt_v (s : State) (b : Byte) : (s.setSt b).v = s.v := rfl
@[simp] theorem State.setSt_i (s : State) (b : Byte) : (s.setSt b).i = s.i := rfl
@[simp] theorem State.setSt_pc (s : State) (b : Byte) : (s.setSt b).pc = s.pc := rfl
@[simp] theorem State.setSt_stack (s : State) (b : Byte) : (s.setSt b).stack = s.stack := rfl
@[simp] theorem State.setSt_dt (s : State) (b : Byte) : (s.setSt b).dt = s.dt := rfl
@[simp] theorem State.setSt_st (s : State) (b : Byte) : (s.setSt b).st = b := rfl
@[simp] theorem State.setSt_fb (s : State) (b : Byte) : (s.setSt b).fb = s.fb := rfl
@[simp] theorem State.setSt_held (s : State) (b : Byte) : (s.setSt b).held = s.held := rfl
@[simp] theorem State.setSt_pressed (s : State) (b : Byte) : (s.setSt b).pressed = s.pressed := rfl
@[simp] theorem State.setSt_fault (s : State) (b : Byte) : (s.setSt b).fault = s.fault := rfl
@[simp] theorem State.setSt_run (s : State) (b : Byte) : (s.setSt b).run = s.run := rfl
@[simp] theorem State.setSt_presented (s : State) (b : Byte) : (s.setSt b).presented = s.presented := rfl
@[simp] theorem State.setSt_polls (s : State) (b : Byte) : (s.setSt b).polls = s.polls := rfl
@[simp] theorem State.setSt_schedule (s : State) (b : Byte) : (s.setSt b).schedule = s.schedule := rfl
@[simp] theorem State.setSt_draws (s : State) (b : Byte) : (s.setSt b).draws = s.draws := rfl
@[simp] theorem State.setSt_reg (s : State) (b : Byte) (q : Reg) : (s.setSt b).reg q = s.reg q := rfl

/-! `setMem` -/

@[simp] theorem State.setMem_mem (s : State) (m : Memory) : (s.setMem m).mem = m := rfl
@[simp] theorem State.setMem_v (s : State) (m : Memory) : (s.setMem m).v = s.v := rfl
@[simp] theorem State.setMem_i (s : State) (m : Memory) : (s.setMem m).i = s.i := rfl
@[simp] theorem State.setMem_pc (s : State) (m : Memory) : (s.setMem m).pc = s.pc := rfl
@[simp] theorem State.setMem_stack (s : State) (m : Memory) : (s.setMem m).stack = s.stack := rfl
@[simp] theorem State.setMem_dt (s : State) (m : Memory) : (s.setMem m).dt = s.dt := rfl
@[simp] theorem State.setMem_st (s : State) (m : Memory) : (s.setMem m).st = s.st := rfl
@[simp] theorem State.setMem_fb (s : State) (m : Memory) : (s.setMem m).fb = s.fb := rfl
@[simp] theorem State.setMem_held (s : State) (m : Memory) : (s.setMem m).held = s.held := rfl
@[simp] theorem State.setMem_pressed (s : State) (m : Memory) : (s.setMem m).pressed = s.pressed := rfl
@[simp] theorem State.setMem_fault (s : State) (m : Memory) : (s.setMem m).fault = s.fault := rfl
@[simp] theorem State.setMem_run (s : State) (m : Memory) : (s.setMem m).run = s.run := rfl
@[simp] theorem State.setMem_presented (s : State) (m : Memory) : (s.setMem m).presented = s.presented := rfl
@[simp] theorem State.setMem_polls (s : State) (m : Memory) : (s.setMem m).polls = s.polls := rfl
@[simp] theorem State.setMem_schedule (s : State) (m : Memory) : (s.setMem m).schedule = s.schedule := rfl
@[simp] theorem State.setMem_draws (s : State) (m : Memory) : (s.setMem m).draws = s.draws := rfl
@[simp] theorem State.setMem_reg (s : State) (m : Memory) (q : Reg) : (s.setMem m).reg q = s.reg q := rfl

/-! `setStack` -/

@[simp] theorem State.setStack_mem (s : State) (l : List Word) : (s.setStack l).mem = s.mem := rfl
@[simp] theorem State.setStack_v (s : State) (l : List Word) : (s.setStack l).v = s.v := rfl
@[simp] theorem State.setStack_i (s : State) (l : List Word) : (s.setStack l).i = s.i := rfl
@[simp] theorem State.setStack_pc (s : State) (l : List Word) : (s.setStack l).pc = s.pc := rfl
@[simp] theorem State.setStack_stack (s : State) (l : List Word) : (s.setStack l).stack = l := rfl
@[simp] theorem State.setStack_dt (s : State) (l : List Word) : (s.setStack l).dt = s.dt := rfl
@[simp] theorem State.setStack_st (s : State) (l : List Word) : (s.setStack l).st = s.st := rfl
@[simp] theorem State.setStack_fb (s : State) (l : List Word) : (s.setStack l).fb = s.fb := rfl
@[simp] theorem State.setStack_held (s : State) (l : List Word) : (s.setStack l).held = s.held := rfl
@[simp] theorem State.setStack_pressed (s : State) (l : List Word) : (s.setStack l).pressed = s.pressed := rfl
@[simp] theorem State.setStack_fault (s : State) (l : List Word) : (s.setStack l).fault = s.fault := rfl
@[simp] theorem State.setStack_run (s : State) (l : List Word) : (s.setStack l).run = s.run := rfl
@[simp] theorem State.setStack_presented (s : State) (l : List Word) : (s.setStack l).presented = s.presented := rfl
@[simp] theorem State.setStack_polls (s : State) (l : List Word) : (s.setStack l).polls = s.polls := rfl
@[simp] theorem State.setStack_schedule (s : State) (l : List Word) : (s.setStack l).schedule = s.schedule := rfl
@[simp] theorem State.setStack_draws (s : State) (l : List Word) : (s.setStack l).draws = s.draws := rfl
@[simp] theorem State.setStack_reg (s : State) (l : List Word) (q : Reg) : (s.setStack l).reg q = s.reg q := rfl

/-! `present` -/

@[simp] theorem State.present_mem (s : State) (b : Bitmap) : (s.present b).mem = s.mem := rfl
@[simp] theorem State.present_v (s : State) (b : Bitmap) : (s.present b).v = s.v := rfl
@[simp] theorem State.present_i (s : State) (b : Bitmap) : (s.present b).i = s.i := rfl
@[simp] theorem State.present_pc (s : State) (b : Bitmap) : (s.present b).pc = s.pc := rfl
@[simp] theorem State.present_stack (s : State) (b : Bitmap) : (s.present b).stack = s.stack := rfl
@[simp] theorem State.present_dt (s : State) (b : Bitmap) : (s.present b).dt = s.dt := rfl
@[simp] theorem State.present_st (s : State) (b : Bitmap) : (s.present b).st = s.st := rfl
@[simp] theorem State.present_fb (s : State) (b : Bitmap) : (s.present b).fb = b := rfl
@[simp] theorem State.present_held (s : State) (b : Bitmap) : (s.present b).held = s.held := rfl
@[simp] theorem State.present_pressed (s : State) (b : Bitmap) : (s.present b).pressed = s.pressed := rfl
@[simp] theorem State.present_fault (s : State) (b : Bitmap) : (s.present b).fault = s.fault := rfl
@[simp] theorem State.present_run (s : State) (b : Bitmap) : (s.present b).run = s.run := rfl
@[simp] theorem State.present_presented (s : State) (b : Bitmap) : (s.present b).presented = s.presented ++ [b] := rfl
@[simp] theorem State.present_polls (s : State) (b : Bitmap) : (s.present b).polls = s.polls := rfl
@[simp] theorem State.present_schedule (s : State) (b : Bitmap) : (s.present b).schedule = s.schedule := rfl
@[simp] theorem State.present_draws (s : State) (b : Bitmap) : (s.present b).draws = s.draws := rfl
@[simp] theorem State.present_reg (s : State) (b : Bitmap) (q : Reg) : (s.present b).reg q = s.reg q := rfl

/-! `nextDraw` -/

@[simp] theorem State.nextDraw_mem (s : State) : (s.nextDraw).mem = s.mem := rfl
@[simp] theorem State.nextDraw_v (s : State) : (s.nextDraw).v = s.v := rfl
@[simp] theorem State.nextDraw_i (s : State) : (s.nextDraw).i = s.i := rfl
@[simp] theorem State.nextDraw_pc (s : State) : (s.nextDraw).pc = s.pc := rfl
@[simp] theorem State.nextDraw_stack (s : State) : (s.nextDraw).stack = s.stack := rfl
@[simp] theorem State.nextDraw_dt (s : State) : (s.nextDraw).dt = s.dt := rfl
@[simp] theorem State.nextDraw_st (s : State) : (s.nextDraw).st = s.st := rfl
@[simp] theorem State.nextDraw_fb (s : State) : (s.nextDraw).fb = s.fb := rfl
@[simp] theorem State.nextDraw_held (s : State) : (s.nextDraw).held = s.held := rfl
@[simp] theorem State.nextDraw_pressed (s : State) : (s.nextDraw).pressed = s.pressed := rfl
@[simp] theorem State.nextDraw_fault (s : State) : (s.nextDraw).fault = s.fault := rfl
@[simp] theorem State.nextDraw_run (s : State) : (s.nextDraw).run = s.run := rfl
@[simp] theorem State.nextDraw_presented (s : State) : (s.nextDraw).presented = s.presented := rfl
@[simp] theorem State.nextDraw_polls (s : State) : (s.nextDraw).polls = s.polls := rfl
@[simp] theorem State.nextDraw_schedule (s : State) : (s.nextDraw).schedule = s.schedule := rfl
@[simp] theorem State.nextDraw_draws (s : State) : (s.nextDraw).draws = s.draws + 1 := rfl
@[simp] theorem State.nextDraw_reg (s : State) (q : Reg) : (s.nextDraw).reg q = s.reg q := rfl

/-! `raise` -/

@[simp] theorem State.raise_mem (s : State) (c : FaultCause) (w : Option Word) (a : Option (BitVec 17)) : (s.raise c w a).mem = s.mem := rfl
@[simp] theorem State.raise_v (s : State) (c : FaultCause) (w : Option Word) (a : Option (BitVec 17)) : (s.raise c w a).v = s.v := rfl
@[simp] theorem State.raise_i (s : State) (c : FaultCause) (w : Option Word) (a : Option (BitVec 17)) : (s.raise c w a).i = s.i := rfl
@[simp] theorem State.raise_pc (s : State) (c : FaultCause) (w : Option Word) (a : Option (BitVec 17)) : (s.raise c w a).pc = s.pc := rfl
@[simp] theorem State.raise_stack (s : State) (c : FaultCause) (w : Option Word) (a : Option (BitVec 17)) : (s.raise c w a).stack = s.stack := rfl
@[simp] theorem State.raise_dt (s : State) (c : FaultCause) (w : Option Word) (a : Option (BitVec 17)) : (s.raise c w a).dt = s.dt := rfl
@[simp] theorem State.raise_st (s : State) (c : FaultCause) (w : Option Word) (a : Option (BitVec 17)) : (s.raise c w a).st = s.st := rfl
@[simp] theorem State.raise_fb (s : State) (c : FaultCause) (w : Option Word) (a : Option (BitVec 17)) : (s.raise c w a).fb = s.fb := rfl
@[simp] theorem State.raise_held (s : State) (c : FaultCause) (w : Option Word) (a : Option (BitVec 17)) : (s.raise c w a).held = s.held := rfl
@[simp] theorem State.raise_pressed (s : State) (c : FaultCause) (w : Option Word) (a : Option (BitVec 17)) : (s.raise c w a).pressed = s.pressed := rfl
@[simp] theorem State.raise_fault (s : State) (c : FaultCause) (w : Option Word) (a : Option (BitVec 17)) : (s.raise c w a).fault = some { cause := c, pc := s.pc, word := w, info := a } := rfl
@[simp] theorem State.raise_run (s : State) (c : FaultCause) (w : Option Word) (a : Option (BitVec 17)) : (s.raise c w a).run = .haltedFault := rfl
@[simp] theorem State.raise_presented (s : State) (c : FaultCause) (w : Option Word) (a : Option (BitVec 17)) : (s.raise c w a).presented = s.presented := rfl
@[simp] theorem State.raise_polls (s : State) (c : FaultCause) (w : Option Word) (a : Option (BitVec 17)) : (s.raise c w a).polls = s.polls := rfl
@[simp] theorem State.raise_schedule (s : State) (c : FaultCause) (w : Option Word) (a : Option (BitVec 17)) : (s.raise c w a).schedule = s.schedule := rfl
@[simp] theorem State.raise_draws (s : State) (c : FaultCause) (w : Option Word) (a : Option (BitVec 17)) : (s.raise c w a).draws = s.draws := rfl
@[simp] theorem State.raise_reg (s : State) (c : FaultCause) (w : Option Word) (a : Option (BitVec 17)) (q : Reg) : (s.raise c w a).reg q = s.reg q := rfl

/-! `tick` -/

@[simp] theorem State.tick_mem (s : State) : (s.tick).mem = s.mem := rfl
@[simp] theorem State.tick_v (s : State) : (s.tick).v = s.v := rfl
@[simp] theorem State.tick_i (s : State) : (s.tick).i = s.i := rfl
@[simp] theorem State.tick_pc (s : State) : (s.tick).pc = s.pc := rfl
@[simp] theorem State.tick_stack (s : State) : (s.tick).stack = s.stack := rfl
@[simp] theorem State.tick_dt (s : State) : (s.tick).dt = (if s.dt.toNat > 0 then s.dt - 1 else s.dt) := rfl
@[simp] theorem State.tick_st (s : State) : (s.tick).st = (if s.st.toNat > 0 then s.st - 1 else s.st) := rfl
@[simp] theorem State.tick_fb (s : State) : (s.tick).fb = s.fb := rfl
@[simp] theorem State.tick_held (s : State) : (s.tick).held = s.held := rfl
@[simp] theorem State.tick_pressed (s : State) : (s.tick).pressed = s.pressed := rfl
@[simp] theorem State.tick_fault (s : State) : (s.tick).fault = s.fault := rfl
@[simp] theorem State.tick_run (s : State) : (s.tick).run = s.run := rfl
@[simp] theorem State.tick_presented (s : State) : (s.tick).presented = s.presented := rfl
@[simp] theorem State.tick_polls (s : State) : (s.tick).polls = s.polls := rfl
@[simp] theorem State.tick_schedule (s : State) : (s.tick).schedule = s.schedule := rfl
@[simp] theorem State.tick_draws (s : State) : (s.tick).draws = s.draws := rfl
@[simp] theorem State.tick_reg (s : State) (q : Reg) : (s.tick).reg q = s.reg q := rfl

/-! `loadRegsFrom` -/

@[simp] theorem State.loadRegsFrom_mem (s : State) (x : Reg) : (s.loadRegsFrom x).mem = s.mem := rfl
@[simp] theorem State.loadRegsFrom_v (s : State) (x : Reg) : (s.loadRegsFrom x).v = Vector.ofFn fun r : Reg => if r ≤ x then Memory.read s.mem (s.i.toNat + r.val) else s.reg r := rfl
@[simp] theorem State.loadRegsFrom_i (s : State) (x : Reg) : (s.loadRegsFrom x).i = s.i := rfl
@[simp] theorem State.loadRegsFrom_pc (s : State) (x : Reg) : (s.loadRegsFrom x).pc = s.pc := rfl
@[simp] theorem State.loadRegsFrom_stack (s : State) (x : Reg) : (s.loadRegsFrom x).stack = s.stack := rfl
@[simp] theorem State.loadRegsFrom_dt (s : State) (x : Reg) : (s.loadRegsFrom x).dt = s.dt := rfl
@[simp] theorem State.loadRegsFrom_st (s : State) (x : Reg) : (s.loadRegsFrom x).st = s.st := rfl
@[simp] theorem State.loadRegsFrom_fb (s : State) (x : Reg) : (s.loadRegsFrom x).fb = s.fb := rfl
@[simp] theorem State.loadRegsFrom_held (s : State) (x : Reg) : (s.loadRegsFrom x).held = s.held := rfl
@[simp] theorem State.loadRegsFrom_pressed (s : State) (x : Reg) : (s.loadRegsFrom x).pressed = s.pressed := rfl
@[simp] theorem State.loadRegsFrom_fault (s : State) (x : Reg) : (s.loadRegsFrom x).fault = s.fault := rfl
@[simp] theorem State.loadRegsFrom_run (s : State) (x : Reg) : (s.loadRegsFrom x).run = s.run := rfl
@[simp] theorem State.loadRegsFrom_presented (s : State) (x : Reg) : (s.loadRegsFrom x).presented = s.presented := rfl
@[simp] theorem State.loadRegsFrom_polls (s : State) (x : Reg) : (s.loadRegsFrom x).polls = s.polls := rfl
@[simp] theorem State.loadRegsFrom_schedule (s : State) (x : Reg) : (s.loadRegsFrom x).schedule = s.schedule := rfl
@[simp] theorem State.loadRegsFrom_draws (s : State) (x : Reg) : (s.loadRegsFrom x).draws = s.draws := rfl

/-! `takeTurn` -/

@[simp] theorem State.takeTurn_mem (s : State) : (s.takeTurn).mem = s.mem := rfl
@[simp] theorem State.takeTurn_v (s : State) : (s.takeTurn).v = s.v := rfl
@[simp] theorem State.takeTurn_i (s : State) : (s.takeTurn).i = s.i := rfl
@[simp] theorem State.takeTurn_pc (s : State) : (s.takeTurn).pc = s.pc := rfl
@[simp] theorem State.takeTurn_stack (s : State) : (s.takeTurn).stack = s.stack := rfl
@[simp] theorem State.takeTurn_dt (s : State) : (s.takeTurn).dt = s.dt := rfl
@[simp] theorem State.takeTurn_st (s : State) : (s.takeTurn).st = s.st := rfl
@[simp] theorem State.takeTurn_fb (s : State) : (s.takeTurn).fb = s.fb := rfl
@[simp] theorem State.takeTurn_held (s : State) : (s.takeTurn).held = s.held := rfl
@[simp] theorem State.takeTurn_pressed (s : State) : (s.takeTurn).pressed = s.pressed := rfl
@[simp] theorem State.takeTurn_fault (s : State) : (s.takeTurn).fault = s.fault := rfl
@[simp] theorem State.takeTurn_run (s : State) : (s.takeTurn).run = s.run := rfl
@[simp] theorem State.takeTurn_presented (s : State) : (s.takeTurn).presented = s.presented := rfl
@[simp] theorem State.takeTurn_polls (s : State) : (s.takeTurn).polls = s.polls := rfl
@[simp] theorem State.takeTurn_schedule (s : State) : (s.takeTurn).schedule = s.schedule.tail := rfl
@[simp] theorem State.takeTurn_draws (s : State) : (s.takeTurn).draws = s.draws := rfl
@[simp] theorem State.takeTurn_reg (s : State) (q : Reg) : (s.takeTurn).reg q = s.reg q := rfl

/-! `polled` -/

@[simp] theorem State.polled_mem (s : State) : (s.polled).mem = s.mem := rfl
@[simp] theorem State.polled_v (s : State) : (s.polled).v = s.v := rfl
@[simp] theorem State.polled_i (s : State) : (s.polled).i = s.i := rfl
@[simp] theorem State.polled_pc (s : State) : (s.polled).pc = s.pc := rfl
@[simp] theorem State.polled_stack (s : State) : (s.polled).stack = s.stack := rfl
@[simp] theorem State.polled_dt (s : State) : (s.polled).dt = s.dt := rfl
@[simp] theorem State.polled_st (s : State) : (s.polled).st = s.st := rfl
@[simp] theorem State.polled_fb (s : State) : (s.polled).fb = s.fb := rfl
@[simp] theorem State.polled_held (s : State) : (s.polled).held = s.nextPoll.events.foldl heldAfter s.held := rfl
@[simp] theorem State.polled_pressed (s : State) : (s.polled).pressed = s.nextPoll.events.foldl pressedAfter (Vector.replicate 16 false) := rfl
@[simp] theorem State.polled_fault (s : State) : (s.polled).fault = s.fault := rfl
@[simp] theorem State.polled_run (s : State) : (s.polled).run = s.run := rfl
@[simp] theorem State.polled_presented (s : State) : (s.polled).presented = s.presented := rfl
@[simp] theorem State.polled_polls (s : State) : (s.polled).polls = s.polls.tail := rfl
@[simp] theorem State.polled_schedule (s : State) : (s.polled).schedule = s.schedule := rfl
@[simp] theorem State.polled_draws (s : State) : (s.polled).draws = s.draws := rfl
@[simp] theorem State.polled_reg (s : State) (q : Reg) : (s.polled).reg q = s.reg q := rfl

/-! `quitCore` -/

@[simp] theorem State.quitCore_mem (s : State) : (s.quitCore).mem = s.mem := rfl
@[simp] theorem State.quitCore_v (s : State) : (s.quitCore).v = s.v := rfl
@[simp] theorem State.quitCore_i (s : State) : (s.quitCore).i = s.i := rfl
@[simp] theorem State.quitCore_pc (s : State) : (s.quitCore).pc = s.pc := rfl
@[simp] theorem State.quitCore_stack (s : State) : (s.quitCore).stack = s.stack := rfl
@[simp] theorem State.quitCore_dt (s : State) : (s.quitCore).dt = s.dt := rfl
@[simp] theorem State.quitCore_st (s : State) : (s.quitCore).st = s.st := rfl
@[simp] theorem State.quitCore_fb (s : State) : (s.quitCore).fb = s.fb := rfl
@[simp] theorem State.quitCore_held (s : State) : (s.quitCore).held = s.held := rfl
@[simp] theorem State.quitCore_pressed (s : State) : (s.quitCore).pressed = s.pressed := rfl
@[simp] theorem State.quitCore_fault (s : State) : (s.quitCore).fault = s.fault := rfl
@[simp] theorem State.quitCore_run (s : State) : (s.quitCore).run = .haltedQuit := rfl
@[simp] theorem State.quitCore_presented (s : State) : (s.quitCore).presented = s.presented := rfl
@[simp] theorem State.quitCore_polls (s : State) : (s.quitCore).polls = s.polls := rfl
@[simp] theorem State.quitCore_schedule (s : State) : (s.quitCore).schedule = s.schedule := rfl
@[simp] theorem State.quitCore_draws (s : State) : (s.quitCore).draws = s.draws := rfl
@[simp] theorem State.quitCore_reg (s : State) (q : Reg) : (s.quitCore).reg q = s.reg q := rfl

/-- Writing a register and reading one. -/
@[simp] theorem State.setReg_reg (s : State) (r : Reg) (b : Byte) (q : Reg) :
    (s.setReg r b).reg q = if r = q then b else s.reg q := by
  simp only [State.reg, State.setReg_v, Vector.getElem_set, Fin.ext_iff]

/-- The registers after a bulk load. -/
@[simp] theorem State.loadRegsFrom_reg (s : State) (x q : Reg) :
    (s.loadRegsFrom x).reg q = if q ≤ x then Memory.read s.mem (s.i.toNat + q.val) else s.reg q := by
  simp [State.reg, State.loadRegsFrom_v]

end Sys2Proof.Machine
end

