-- ==== Sys2Proof/Laws/Ops.lean ====
section
/-! SUPPORT. One lemma per shared operation that says what it can do: taking a fault, the bounds check, a skip, a key skip,
the flag and narrowing functions, the operand forms, the keypad update and the fetch. -/

namespace Sys2Proof.Machine

/-- Taking a fault gives the record, the halt and nothing else. -/
theorem raise_eq_faulted (s : State) (c : FaultCause) (w : Option Word) (a : Option (BitVec 17)) :
    s.raise c w a = faulted s c w a := rfl

/-- The bounds check: the fault where the last address is outside memory, else what was to be done. -/
theorem accessing_eq (s : State) (i : Instr) (last : Nat) (done : State) :
    s.accessing i last done =
      if last > 0xFFF then faulted s .memOutOfBounds (some (encode i)) (some (.ofNat 17 last)) else done := rfl

/-- A skip moves PC by 4 or by 2. -/
theorem skipIf_eq (s : State) (cond : Bool) : s.skipIf cond = s.setPc (if cond then s.pc + 4 else s.pc + 2) := by
  cases cond
  · rfl
  · simp only [State.skipIf, State.advance, State.setPc, if_true, BitVec.add_assoc]
    rfl

/-- A key skip: the fault for a value above 15, else a skip on the key's held flag. -/
theorem keySkip_eq (s : State) (i : Instr) (b : Byte) (want : Bool) :
    s.keySkip i b want =
      if b.toNat > 15 then faulted s .keyOutOfRange (some (encode i)) (some (.ofNat 17 b.toNat))
      else s.skipIf (s.held[b.toNat]? == some want) := by
  unfold State.keySkip State.heldKey
  by_cases h : b.toNat < 16
  · rw [dif_pos h, if_neg (by omega)]
    simp [h]
  · rw [dif_neg h, if_pos (by omega)]
    have : b.setWidth 17 = BitVec.ofNat 17 b.toNat := by
      apply BitVec.eq_of_toNat_eq; simp
    rw [this]
    rfl

theorem flagByte_toNat (b : Bool) : (flagByte b).toNat = if b then 1 else 0 := by cases b <;> rfl

theorem sumByte_toNat (a b : Byte) : (sumByte a b).toNat = (a.toNat + b.toNat) % 256 := by
  simp [sumByte]

theorem differenceByte_toNat (a b : Byte) : ((differenceByte a b).toNat : Int) = ((a.toNat : Int) - b.toNat) % 256 := by
  simp only [differenceByte, BitVec.toNat_ofInt]
  omega

theorem shiftedRight_toNat (b : Byte) : (shiftedRight b).toNat = b.toNat / 2 := by
  simp [shiftedRight, Nat.shiftRight_eq_div_pow]

theorem outOfRight_eq (b : Byte) : outOfRight b = decide (b.toNat % 2 = 1) := by
  simp [outOfRight, BitVec.getLsbD, Nat.testBit_zero]

theorem shiftedLeft_toNat (b : Byte) : (shiftedLeft b).toNat = b.toNat * 2 % 256 := by
  simp [shiftedLeft, Nat.shiftLeft_eq]

theorem outOfLeft_eq (b : Byte) : outOfLeft b = decide (b.toNat ≥ 128) := by
  have hb := b.isLt
  rw [outOfLeft, BitVec.getLsbD, Nat.testBit_eq_decide_div_mod_eq]
  apply decide_eq_decide.2
  omega

theorem indexSum_toNat (i : Word) (b : Byte) : (indexSum i b).toNat = (i.toNat + b.toNat) % 65536 := by
  simp [indexSum]

theorem addrWord_toNat (nnn : Addr12) : (addrWord nnn).toNat = nnn.toNat := by
  have := nnn.isLt
  simp only [addrWord, BitVec.toNat_setWidth]
  omega

/-- Jump with offset does not wrap. -/
theorem jumpOffsetTarget_toNat (s : State) (mode : JumpOffsetMode) (nnn : Addr12) :
    (s.jumpOffsetTarget mode nnn).toNat =
      nnn.toNat + (s.reg (match mode with | .v0 => v0 | .vx => topNibble nnn)).toNat := by
  cases mode <;>
    (simp only [State.jumpOffsetTarget, BitVec.toNat_add, addrWord_toNat, BitVec.toNat_setWidth]; omega)

/-- V0 to VX as a list: its length and its elements. -/
theorem regsUpTo_length (s : State) (x : Reg) : (s.regsUpTo x).length = x.val + 1 := by
  simp [State.regsUpTo]

theorem regsUpTo_getD (s : State) (x r : Reg) (h : r ≤ x) : (s.regsUpTo x).getD r.val 0 = s.reg r := by
  have hr := r.isLt
  have hx : r.val < x.val + 1 := Nat.lt_succ_of_le h
  simp [State.regsUpTo, State.reg, List.getElem?_take_of_lt hx, hr]

/-- The keys of the pressed list are those whose flag is set. -/
theorem mem_pressedKeys (s : State) (k : Key) : k ∈ s.pressedKeys ↔ s.pressed[k.val]'k.isLt = true := by
  simp [State.pressedKeys]

/-- The chosen key is one of the pressed ones. -/
theorem chosenKey_mem (n : Nat) (k : Key) (ks : List Key) : chosenKey n k ks ∈ k :: ks := by
  cases ks with
  | nil => simp [chosenKey]
  | cons k' ks =>
    have hlt : n % ((k' :: ks).length + 1) < (k :: k' :: ks).length := Nat.mod_lt _ (Nat.succ_pos _)
    rw [chosenKey, List.getD_eq_getElem _ _ hlt]
    exact List.getElem_mem hlt

/-- Every pressed key is chosen by some choice. -/
theorem chosenKey_surjective (k : Key) (ks : List Key) (q : Key) (h : q ∈ k :: ks) : ∃ n, chosenKey n k ks = q := by
  obtain ⟨n, hn, rfl⟩ := List.getElem_of_mem h
  refine ⟨n, ?_⟩
  cases ks with
  | nil =>
    have : n = 0 := by simpa using hn
    subst this; rfl
  | cons k' ks =>
    have hlt : n % ((k' :: ks).length + 1) = n := Nat.mod_eq_of_lt (by simpa using hn)
    rw [chosenKey, hlt, List.getD_eq_getElem _ _ hn]

/-- Awaiting a key: nothing where no key is pressed, else the register, PC and the free-value counter. -/
theorem awaitKey_cases (s : State) (choice : Nat) (x : Reg) :
    (s.pressedKeys = [] ∧ s.awaitKey choice x = s) ∨
    (∃ k ks, s.pressedKeys = k :: ks ∧
      s.awaitKey choice x = (s.advance.setReg x (.ofNat 8 (chosenKey choice k ks).val)).nextDraw) := by
  unfold State.awaitKey
  cases s.pressedKeys with
  | nil => exact .inl ⟨rfl, rfl⟩
  | cons k ks => exact .inr ⟨k, ks, rfl, rfl⟩

/-- A flagged write: the flag in VF, the result in its register unless that is VF, every other register as it was. -/
theorem writeFlagged_reg (s : State) (x : Reg) (b : Byte) (flag : Bool) (q : Reg) :
    (s.writeFlagged x b flag).reg q = if q = vF then flagByte flag else if q = x then b else s.reg q := by
  simp only [State.writeFlagged, State.writeResult, State.setReg_reg, State.advance_reg, eq_comm]

/-- A drawn sprite changes PC, VF, the bitmap and the output. -/
theorem drawSprite_eq (s : State) (x y : Reg) (n : Nibble) :
    s.drawSprite x y n =
      let c := drawBytes { fb := s.fb, hit := false } (s.startColumn x) (s.startRow y) (s.spriteBytes n)
      { s with
        pc := s.pc + 2, v := s.v.set vF.val (flagByte c.hit) vF.isLt, fb := c.fb, presented := s.presented ++ [c.fb] } :=
  rfl

/-- A bulk store changes PC, I and memory. -/
theorem bulkStore_eq (s : State) (autoInc : Bool) (x : Reg) :
    s.bulkStore autoInc x =
      { s with
        pc := s.pc + 2, i := s.indexAfterBulk autoInc x
        mem := Memory.writeBytes s.mem s.i.toNat (s.regsUpTo x) } :=
  rfl

/-- A bulk load changes PC, I and the registers. -/
theorem bulkLoad_eq (s : State) (autoInc : Bool) (x : Reg) :
    s.bulkLoad autoInc x =
      { s with
        pc := s.pc + 2, i := s.indexAfterBulk autoInc x
        v := Vector.ofFn fun r : Reg => if r ≤ x then Memory.read s.mem (s.i.toNat + r.val) else s.reg r } := by
  simp only [State.bulkLoad, State.loadRegsFrom, State.setI, State.advance, State.indexAfterBulk, State.reg]

/-- I after a bulk operation whose bytes lie in memory. -/
theorem indexAfterBulk_toNat (s : State) (autoInc : Bool) (x : Reg) (h : s.i.toNat + x.val ≤ 0xFFF) :
    (s.indexAfterBulk autoInc x).toNat = if autoInc then s.i.toNat + x.val + 1 else s.i.toNat := by
  cases autoInc
  · rfl
  · simp only [State.indexAfterBulk, if_true, BitVec.toNat_ofNat]
    omega

/-- One tick: each timer down by one, never below 0. -/
theorem tick_toNat (s : State) : s.tick.dt.toNat = s.dt.toNat - 1 ∧ s.tick.st.toNat = s.st.toNat - 1 := by
  have one : ∀ b : Byte, (if b.toNat > 0 then b - 1 else b).toNat = b.toNat - 1 := by
    intro b
    have hb := b.isLt
    split
    · rw [BitVec.toNat_sub]; simp; omega
    · omega
  exact ⟨one s.dt, one s.st⟩

/-- The word a fetch reads, and where it reads none (spec/40_cycle.md R132). -/
theorem fetch_eq (s : State) :
    s.fetch = if s.pc.toNat + 1 > 0xFFF then none
      else some (wordOfBytes (Memory.read s.mem s.pc.toNat) (Memory.read s.mem (s.pc.toNat + 1))) := rfl

theorem wordOfBytes_toNat (hi lo : Byte) : (wordOfBytes hi lo).toNat = hi.toNat * 256 + lo.toNat := by
  have h1 := hi.isLt
  have h2 := lo.isLt
  rw [wordOfBytes, BitVec.toNat_or, BitVec.toNat_shiftLeft, BitVec.toNat_setWidth, BitVec.toNat_setWidth,
    Nat.mod_eq_of_lt (a := hi.toNat) (by omega), Nat.mod_eq_of_lt (a := lo.toNat) (by omega), Nat.shiftLeft_eq,
    Nat.mod_eq_of_lt (by omega), ← Nat.shiftLeft_eq, ← Nat.shiftLeft_add_eq_or_of_lt h2, Nat.shiftLeft_eq]

end Sys2Proof.Machine
end

