-- ==== Sys2Proof/Laws/PerInstr.lean ====
section
/-! SUPPORT. Statements for all instructions, one lemma per constructor. Family `RowOfEncoding`: an instruction's word is of
its own row of the opcode table (spec/30_encoding.md R104, R113). -/

namespace Sys2Proof

theorem matchesRow_encodeA (op : Nibble) (nnn : Addr12) :
    matchesRow (encodeA op nnn) (encodeA op 0, 0xF000) = true := by
  rw [matchesRow, beq_iff_eq]
  apply BitVec.eq_of_getLsbD_eq
  intro i hi
  simp only [encodeA]
  interval_cases i <;> simp

theorem matchesRow_encodeRB (op : Nibble) (x : Reg) (nn : Byte) :
    matchesRow (encodeRB op x nn) (encodeRB op 0 0, 0xF000) = true := by
  rw [matchesRow, beq_iff_eq]
  apply BitVec.eq_of_getLsbD_eq
  intro i hi
  simp only [encodeRB]
  interval_cases i <;> simp [regField]

theorem matchesRow_encodeRS (op : Nibble) (x : Reg) (nn : Byte) :
    matchesRow (encodeRB op x nn) (encodeRB op 0 nn, 0xF0FF) = true := by
  rw [matchesRow, beq_iff_eq]
  apply BitVec.eq_of_getLsbD_eq
  intro i hi
  simp only [encodeRB]
  interval_cases i <;> simp [regField]

theorem matchesRow_encodeRR (op : Nibble) (x y : Reg) (n : Nibble) :
    matchesRow (encodeRR op x y n) (encodeRR op 0 0 n, 0xF00F) = true := by
  rw [matchesRow, beq_iff_eq]
  apply BitVec.eq_of_getLsbD_eq
  intro i hi
  simp only [encodeRR]
  interval_cases i <;> simp [regField]

theorem matchesRow_encodeRRN (op : Nibble) (x y : Reg) (n : Nibble) :
    matchesRow (encodeRR op x y n) (encodeRR op 0 0 0, 0xF000) = true := by
  rw [matchesRow, beq_iff_eq]
  apply BitVec.eq_of_getLsbD_eq
  intro i hi
  simp only [encodeRR]
  interval_cases i <;> simp [regField]

/-- The instruction's word is of the instruction's row. -/
def Laws.RowOfEncoding.Statement (i : Instr) : Prop :=
  matchesRow (encode i) (opcodeRows.getD i.rowIndex (0, 0)) = true

theorem Laws.RowOfEncoding.cls : Laws.RowOfEncoding.Statement .cls := rfl
theorem Laws.RowOfEncoding.ret : Laws.RowOfEncoding.Statement .ret := rfl
theorem Laws.RowOfEncoding.jp (nnn : Addr12) : Laws.RowOfEncoding.Statement (.jp nnn) := matchesRow_encodeA 0x1 nnn
theorem Laws.RowOfEncoding.call (nnn : Addr12) : Laws.RowOfEncoding.Statement (.call nnn) := matchesRow_encodeA 0x2 nnn
theorem Laws.RowOfEncoding.seByte (x : Reg) (nn : Byte) : Laws.RowOfEncoding.Statement (.seByte x nn) :=
  matchesRow_encodeRB 0x3 x nn
theorem Laws.RowOfEncoding.sneByte (x : Reg) (nn : Byte) : Laws.RowOfEncoding.Statement (.sneByte x nn) :=
  matchesRow_encodeRB 0x4 x nn
theorem Laws.RowOfEncoding.seReg (x y : Reg) : Laws.RowOfEncoding.Statement (.seReg x y) :=
  matchesRow_encodeRR 0x5 x y 0x0
theorem Laws.RowOfEncoding.ldByte (x : Reg) (nn : Byte) : Laws.RowOfEncoding.Statement (.ldByte x nn) :=
  matchesRow_encodeRB 0x6 x nn
theorem Laws.RowOfEncoding.addByte (x : Reg) (nn : Byte) : Laws.RowOfEncoding.Statement (.addByte x nn) :=
  matchesRow_encodeRB 0x7 x nn
theorem Laws.RowOfEncoding.ldReg (x y : Reg) : Laws.RowOfEncoding.Statement (.ldReg x y) :=
  matchesRow_encodeRR 0x8 x y 0x0
theorem Laws.RowOfEncoding.orReg (x y : Reg) : Laws.RowOfEncoding.Statement (.orReg x y) :=
  matchesRow_encodeRR 0x8 x y 0x1
theorem Laws.RowOfEncoding.andReg (x y : Reg) : Laws.RowOfEncoding.Statement (.andReg x y) :=
  matchesRow_encodeRR 0x8 x y 0x2
theorem Laws.RowOfEncoding.xorReg (x y : Reg) : Laws.RowOfEncoding.Statement (.xorReg x y) :=
  matchesRow_encodeRR 0x8 x y 0x3
theorem Laws.RowOfEncoding.addReg (x y : Reg) : Laws.RowOfEncoding.Statement (.addReg x y) :=
  matchesRow_encodeRR 0x8 x y 0x4
theorem Laws.RowOfEncoding.subReg (x y : Reg) : Laws.RowOfEncoding.Statement (.subReg x y) :=
  matchesRow_encodeRR 0x8 x y 0x5
theorem Laws.RowOfEncoding.shrReg (x y : Reg) : Laws.RowOfEncoding.Statement (.shrReg x y) :=
  matchesRow_encodeRR 0x8 x y 0x6
theorem Laws.RowOfEncoding.subnReg (x y : Reg) : Laws.RowOfEncoding.Statement (.subnReg x y) :=
  matchesRow_encodeRR 0x8 x y 0x7
theorem Laws.RowOfEncoding.shlReg (x y : Reg) : Laws.RowOfEncoding.Statement (.shlReg x y) :=
  matchesRow_encodeRR 0x8 x y 0xE
theorem Laws.RowOfEncoding.sneReg (x y : Reg) : Laws.RowOfEncoding.Statement (.sneReg x y) :=
  matchesRow_encodeRR 0x9 x y 0x0
theorem Laws.RowOfEncoding.ldI (nnn : Addr12) : Laws.RowOfEncoding.Statement (.ldI nnn) := matchesRow_encodeA 0xA nnn
theorem Laws.RowOfEncoding.jpV0 (nnn : Addr12) : Laws.RowOfEncoding.Statement (.jpV0 nnn) := matchesRow_encodeA 0xB nnn
theorem Laws.RowOfEncoding.rnd (x : Reg) (nn : Byte) : Laws.RowOfEncoding.Statement (.rnd x nn) :=
  matchesRow_encodeRB 0xC x nn
theorem Laws.RowOfEncoding.drw (x y : Reg) (n : Nibble) : Laws.RowOfEncoding.Statement (.drw x y n) :=
  matchesRow_encodeRRN 0xD x y n
theorem Laws.RowOfEncoding.skp (x : Reg) : Laws.RowOfEncoding.Statement (.skp x) := matchesRow_encodeRS 0xE x 0x9E
theorem Laws.RowOfEncoding.sknp (x : Reg) : Laws.RowOfEncoding.Statement (.sknp x) := matchesRow_encodeRS 0xE x 0xA1
theorem Laws.RowOfEncoding.ldVxDt (x : Reg) : Laws.RowOfEncoding.Statement (.ldVxDt x) := matchesRow_encodeRS 0xF x 0x07
theorem Laws.RowOfEncoding.ldVxK (x : Reg) : Laws.RowOfEncoding.Statement (.ldVxK x) := matchesRow_encodeRS 0xF x 0x0A
theorem Laws.RowOfEncoding.ldDtVx (x : Reg) : Laws.RowOfEncoding.Statement (.ldDtVx x) := matchesRow_encodeRS 0xF x 0x15
theorem Laws.RowOfEncoding.ldStVx (x : Reg) : Laws.RowOfEncoding.Statement (.ldStVx x) := matchesRow_encodeRS 0xF x 0x18
theorem Laws.RowOfEncoding.addI (x : Reg) : Laws.RowOfEncoding.Statement (.addI x) := matchesRow_encodeRS 0xF x 0x1E
theorem Laws.RowOfEncoding.ldF (x : Reg) : Laws.RowOfEncoding.Statement (.ldF x) := matchesRow_encodeRS 0xF x 0x29
theorem Laws.RowOfEncoding.ldB (x : Reg) : Laws.RowOfEncoding.Statement (.ldB x) := matchesRow_encodeRS 0xF x 0x33
theorem Laws.RowOfEncoding.storeRegs (x : Reg) : Laws.RowOfEncoding.Statement (.storeRegs x) :=
  matchesRow_encodeRS 0xF x 0x55
theorem Laws.RowOfEncoding.loadRegs (x : Reg) : Laws.RowOfEncoding.Statement (.loadRegs x) :=
  matchesRow_encodeRS 0xF x 0x65

end Sys2Proof
end

