-- ==== Sys2Proof/Laws/Step.lean ====
section
/-! SUPPORT. What a step can do: the timer engine's tick, the halted core's stop, the quit, the two faults of fetch and
decode, or `exec` of the decoded instruction. -/

namespace Sys2Proof.Machine

/-- A step in the timer engine's turn. -/
theorem step_of_timer {s : State} (h : s.turn = .timer) : step s = .next s.takeTurn.tick := by
  unfold step
  rw [h]

/-- A step in the turn of a running core. -/
theorem step_of_core {s : State} (hrun : s.run = .running) (hturn : s.turn = .core) :
    step s =
      if s.nextPoll.quit then .next s.takeTurn.polled.quitCore else fetchExecute s.takeTurn.polled := by
  unfold step iteration
  rw [hturn]
  simp only [State.takeTurn_run, hrun]
  rfl

/-- A step in the turn of a halted core. -/
theorem step_of_halted {s : State} (hrun : s.run ≠ .running) (hturn : s.turn = .core) :
    step s = .fault .coreHalted := by
  unfold step iteration
  rw [hturn]
  simp only [State.takeTurn_run]
  split <;> simp_all

/-- Every way fetch, decode and execute answers a next state. -/
theorem fetchExecute_cases {s t : State} (h : fetchExecute s = .next t) :
    (s.fetch = none ∧ t = s.raise .pcOutOfBounds none none) ∨
    (∃ w, s.fetch = some w ∧ (∀ i, decodeWord w ≠ .ok i) ∧ t = s.raise .unimplementedInstruction (some w) none) ∨
    (∃ w i, s.fetch = some w ∧ decodeWord w = .ok i ∧ exec i s = .next t) := by
  unfold fetchExecute at h
  split at h
  next hf => cases h; exact .inl ⟨hf, rfl⟩
  next w hw =>
    split at h
    next hd => cases h; exact .inr (.inl ⟨w, hw, by simp [hd], rfl⟩)
    next i hd => exact .inr (.inr ⟨w, i, hw, hd, h⟩)

/-- Every way a step answers a next state. -/
theorem step_cases {s t : State} (h : step s = .next t) :
    (s.turn = .timer ∧ t = s.takeTurn.tick) ∨
    (s.turn = .core ∧ s.run = .running ∧ s.nextPoll.quit = true ∧ t = s.takeTurn.polled.quitCore) ∨
    (s.turn = .core ∧ s.run = .running ∧ s.nextPoll.quit = false ∧ fetchExecute s.takeTurn.polled = .next t) := by
  cases hturn : s.turn with
  | timer => rw [step_of_timer hturn] at h; cases h; exact .inl ⟨rfl, rfl⟩
  | core =>
    by_cases hrun : s.run = .running
    · rw [step_of_core hrun hturn] at h
      split at h
      next hq => cases h; exact .inr (.inl ⟨rfl, hrun, hq, rfl⟩)
      next hq => exact .inr (.inr ⟨rfl, hrun, by simpa using hq, h⟩)
    · rw [step_of_halted hrun hturn] at h; cases h

end Sys2Proof.Machine
end

