-- ==== Sys2Proof/Laws/Run.lean ====
section
/-! SUPPORT. What one step of a run can do, by whose turn it is. -/

namespace Sys2Proof.Machine

/-- A given turn of the timer engine: a tick, and no turn left in the state. -/
theorem step_given_timer (s : State) : step (s.given .timer) = .next { s.tick with schedule := [] } := rfl

/-- The state a given poll leaves. -/
theorem polled_given_core (s : State) (p : Poll) :
    (s.given (.core p)).takeTurn.polled =
      { s with
        schedule := [], polls := []
        held := p.events.foldl heldAfter s.held
        pressed := p.events.foldl pressedAfter (Vector.replicate 16 false) } := rfl

/-- A given turn of the core that answers a next state: the core was running, and quit, or fetched and executed. -/
theorem step_given_core {s t : State} {p : Poll} (h : step (s.given (.core p)) = .next t) :
    s.run = .running ∧
      ((p.quit = true ∧ t = (s.given (.core p)).takeTurn.polled.quitCore) ∨
       (p.quit = false ∧ fetchExecute (s.given (.core p)).takeTurn.polled = .next t)) := by
  obtain ⟨h1, _⟩ | ⟨_, hrun, hq, rfl⟩ | ⟨_, hrun, hq, h⟩ := step_cases h
  · cases h1
  · exact ⟨hrun, .inl ⟨hq, rfl⟩⟩
  · exact ⟨hrun, .inr ⟨hq, h⟩⟩

/-- The next instruction is read from PC and memory alone. -/
theorem nextInstr_eq_some {s : State} {i : Instr} :
    s.nextInstr = some i ↔ ∃ w, s.fetch = some w ∧ decodeWord w = .ok i := by
  unfold State.nextInstr
  split
  next h => simp [h]
  next w h =>
    split
    next hd => simp [h, hd]
    next j hd => simp [h, hd]

end Sys2Proof.Machine
end

