-- ==== Sys2Proof/Tests/Slice0.lean ====
section
/-! SUPPORT. Tests of the model and witnesses for the statements. Expected values come from spec/95_test_vectors.md (the
vector is named) or, where it has none, by hand from the rule named. A test of an instruction is one step. -/

namespace Sys2Proof.Machine

/-! ## Helpers -/

/-- What `f` shows of the next state. -/
def seen {α : Type} (f : State → α) : Host.Outcome State Fault Refusal → Option α
  | .next s => some (f s)
  | .fault _ => none
  | .refused _ => none

/-- One step with a word placed at PC. -/
def run (s : State) (w : Nat) : Host.Outcome State Fault Refusal := step (s.withFetchWord 16 w)

/-- The reset state with registers set. -/
def withRegs (l : List (Reg × Byte)) : State := l.foldl (fun s p => s.setReg p.1 p.2) State.reset

/-- A fault record as the vectors write it: code, pc, word, info. -/
def record (s : State) : Option (BitVec 4 × Word × Option Word × Option (BitVec 17)) :=
  s.fault.map fun r => (r.cause.code, r.pc, r.word, r.info)

/-- The bytes from an address on. -/
def bytes (a n : Nat) (s : State) : List Byte := Memory.readBytes s.mem a n

/-- The number of set pixels. -/
def lit (s : State) : Nat := s.fb.toList.foldl (fun k row => row.toList.foldl (fun k b => if b then k + 1 else k) k) 0

/-- A stack of n entries. -/
def stackOf (n : Nat) : List Word := List.replicate n 0x202

/-! ## Which words are instructions: a word each check of R106 refuses, and the draw of height 0 -/

theorem test_wellFormed_class0 : wordImplemented 0x0123 = false ∧ wordImplemented 0x00EE = true := by decide
theorem test_wellFormed_class5 : wordImplemented 0x5121 = false ∧ wordImplemented 0x5120 = true := by decide
theorem test_wellFormed_class8 : wordImplemented 0x801F = false ∧ wordImplemented 0x801E = true := by decide
theorem test_wellFormed_class9 : wordImplemented 0x912F = false ∧ wordImplemented 0x9120 = true := by decide
theorem test_wellFormed_classE : wordImplemented 0xE19F = false ∧ wordImplemented 0xE19E = true := by decide
theorem test_wellFormed_classF : wordImplemented 0xF175 = false ∧ wordImplemented 0xF165 = true := by decide
theorem test_wellFormed_drw0 : Instr.wellFormed (.drw 1 2 0) = false ∧ Instr.wellFormed (.drw 1 2 1) = true := by decide

/-! ## Decoding: every constructor, a word written out from its pattern in 30_encoding.md R104, X = 3 and Y = 4 -/

theorem test_decode_control :
    decodeWord 0x00EE = .ok .ret ∧ decodeWord 0x1ABC = .ok (.jp 0xABC) ∧ decodeWord 0x2ABC = .ok (.call 0xABC) ∧
    decodeWord 0xBABC = .ok (.jpV0 0xABC) := by decide
theorem test_decode_skips :
    decodeWord 0x3356 = .ok (.seByte 3 0x56) ∧ decodeWord 0x4356 = .ok (.sneByte 3 0x56) ∧
    decodeWord 0x5340 = .ok (.seReg 3 4) ∧ decodeWord 0x9340 = .ok (.sneReg 3 4) := by decide
theorem test_decode_loads :
    decodeWord 0x6356 = .ok (.ldByte 3 0x56) ∧ decodeWord 0x7356 = .ok (.addByte 3 0x56) ∧
    decodeWord 0xC356 = .ok (.rnd 3 0x56) ∧ decodeWord 0xAABC = .ok (.ldI 0xABC) := by decide
theorem test_decode_alu :
    decodeWord 0x8340 = .ok (.ldReg 3 4) ∧ decodeWord 0x8341 = .ok (.orReg 3 4) ∧ decodeWord 0x8342 = .ok (.andReg 3 4) ∧
    decodeWord 0x8343 = .ok (.xorReg 3 4) ∧ decodeWord 0x8344 = .ok (.addReg 3 4) ∧
    decodeWord 0x8345 = .ok (.subReg 3 4) ∧ decodeWord 0x8346 = .ok (.shrReg 3 4) ∧
    decodeWord 0x8347 = .ok (.subnReg 3 4) ∧ decodeWord 0x834E = .ok (.shlReg 3 4) := by decide
theorem test_decode_display :
    decodeWord 0x00E0 = .ok .cls ∧ decodeWord 0xD345 = .ok (.drw 3 4 5) ∧ decodeWord 0xD340 = .ok (.drw 3 4 0) := by
  decide
theorem test_decode_keys :
    decodeWord 0xE39E = .ok (.skp 3) ∧ decodeWord 0xE3A1 = .ok (.sknp 3) ∧ decodeWord 0xF30A = .ok (.ldVxK 3) := by
  decide
theorem test_decode_timers :
    decodeWord 0xF307 = .ok (.ldVxDt 3) ∧ decodeWord 0xF315 = .ok (.ldDtVx 3) ∧ decodeWord 0xF318 = .ok (.ldStVx 3) := by
  decide
theorem test_decode_memory :
    decodeWord 0xF31E = .ok (.addI 3) ∧ decodeWord 0xF329 = .ok (.ldF 3) ∧ decodeWord 0xF333 = .ok (.ldB 3) ∧
    decodeWord 0xF355 = .ok (.storeRegs 3) ∧ decodeWord 0xF365 = .ok (.loadRegs 3) := by decide
/-- C6 to C13: words that are no instruction. -/
theorem test_decode_rejects :
    ([0x0000, 0x0123, 0x00E1, 0x00EF, 0x00FF, 0x5121, 0x912F, 0x8018, 0x801A, 0x801D, 0x801F, 0xE19F, 0xE1A0, 0xE100,
      0xF100, 0xF175, 0xF1FF] : List Word).all (fun w => decide (decodeWord w = .error (.unimplemented w))) = true := by
  decide
/-- R113: the two words the spec encodes. -/
theorem test_encode_examples : encode (.drw 1 2 5) = 0xD125 ∧ encode (.ldByte 0xA 0x3C) = 0x6A3C := by decide

/-! ## The cycle -/

/-- C2: fetch at an odd address. -/
theorem test_fetch_odd :
    seen (fun t => (t.pc, t.reg 0)) (run { State.reset with pc := 0x201 } 0x6007) = some (0x203, 7) := by decide
/-- C3: the last word of memory is fetched. -/
theorem test_fetch_last : seen State.pc (run { State.reset with pc := 0xFFE } 0x1200) = some 0x200 := by decide
/-- C4, C5: a fetch that leaves memory. -/
theorem test_fetch_outside :
    seen record (step { State.reset with pc := 0xFFF }) = some (some (2, 0xFFF, none, none)) := by decide
theorem test_fetch_far_outside :
    seen record (step { State.reset with pc := 0x1000 }) = some (some (2, 0x1000, none, none)) := by decide
/-- C6, Z5: the empty image. -/
theorem test_reset_empty : seen record (step State.reset) = some (some (1, 0x200, some 0x0000, none)) := by decide
/-- C15: an unimplemented word changes nothing but the record and the status. -/
theorem test_fault_precise :
    seen (fun t => (t.pc, t.reg 0, t.run, t.presented.length)) (run (withRegs [(0, 3)]) 0x0000) =
      some (0x200, 3, .haltedFault, 0) := by decide
/-- C14: a quit. -/
theorem test_quit :
    seen (fun t => (t.pc, t.reg 0, t.run))
      (step { (State.reset.withFetchWord 16 0x6007) with polls := [{ events := [], quit := true }] }) =
      some (0x200, 0, .haltedQuit) := by decide
/-- K16, K17, K19: a tick, also of a halted core. -/
theorem test_tick :
    seen (fun t => (t.dt, t.st)) (step { State.reset with dt := 1, schedule := [.timer] }) = some (0, 0) ∧
    seen (fun t => (t.dt, t.st))
      (step { State.reset with dt := 2, st := 3, run := .haltedFault, schedule := [.timer] }) = some (1, 2) := by
  decide
/-- Z1 to Z4: reset with an image. -/
theorem test_reset_image :
    (State.resetWith (some [0x60, 0x07])).map (bytes 0x1FF 4) = some [0, 0x60, 0x07, 0] ∧
    (State.resetWith (some [0x60, 0x07])).map (bytes 0x4F 2) = some [0, 0xF0] ∧
    (State.resetWith (some [0x60, 0x07])).map (bytes 0x9F 2) = some [0x80, 0] := by decide

/-! ## Control transfer -/

/-- F7, F8. -/
theorem test_ret :
    seen (fun t => (t.pc, t.stack)) (run { State.reset with pc := 0x212, stack := [0x206] } 0x00EE) =
      some (0x206, []) := by decide
theorem test_ret_empty :
    seen record (run { State.reset with pc := 0x300 } 0x00EE) = some (some (5, 0x300, some 0x00EE, none)) := by decide
/-- F1, F3. -/
theorem test_jp : seen State.pc (run State.reset 0x12A0) = some 0x2A0 := by decide
theorem test_jp_top : seen State.pc (run State.reset 0x1FFF) = some 0xFFF := by decide
/-- F5, F6. -/
theorem test_call :
    seen (fun t => (t.pc, t.stack.length, t.stack.getLast?))
      (run { State.reset with pc := 0x204, stack := stackOf 15 } 0x2210) = some (0x210, 16, some 0x206) := by decide
theorem test_call_full :
    seen record (run { State.reset with pc := 0x204, stack := stackOf 16 } 0x2210) =
      some (some (4, 0x204, some 0x2210, none)) := by decide
/-- F10, F11. -/
theorem test_se_byte : seen State.pc (run (withRegs [(3, 0x42)]) 0x3342) = some 0x204 := by decide
theorem test_se_byte_not : seen State.pc (run (withRegs [(3, 0x41)]) 0x3342) = some 0x202 := by decide
/-- F12, F13. -/
theorem test_sne_byte : seen State.pc (run (withRegs [(3, 0x41)]) 0x4342) = some 0x204 := by decide
theorem test_sne_byte_not : seen State.pc (run (withRegs [(3, 0x42)]) 0x4342) = some 0x202 := by decide
/-- F14, and R166 by hand. -/
theorem test_se_reg : seen State.pc (run (withRegs [(1, 7), (2, 7)]) 0x5120) = some 0x204 := by decide
theorem test_se_reg_not : seen State.pc (run (withRegs [(1, 7), (2, 8)]) 0x5120) = some 0x202 := by decide
/-- F16, F17. -/
theorem test_sne_reg : seen State.pc (run (withRegs [(1, 7), (2, 8)]) 0x9120) = some 0x204 := by decide
theorem test_sne_reg_same : seen State.pc (run (withRegs [(1, 7)]) 0x9110) = some 0x202 := by decide
/-- F20, F22. -/
theorem test_jp_v0 : seen State.pc (run (withRegs [(0, 0xFF)]) 0xBFFF) = some 0x10FE := by decide
theorem test_jp_v0_modes :
    (withRegs [(0, 5), (2, 0x10)]).jumpOffsetTarget .vx 0x234 = 0x244 ∧
    (withRegs [(0, 5), (2, 0x10)]).jumpOffsetTarget .v0 0x234 = 0x239 := by decide

/-! ## ALU -/

/-- A1; A2 (C1 is the plain case). -/
theorem test_ld_byte : seen (fun t => (t.pc, t.reg 5)) (run State.reset 0x65AB) = some (0x202, 0xAB) := by decide
theorem test_ld_byte_vf : seen (fun t => t.reg vF) (run State.reset 0x6FAB) = some 0xAB := by decide
/-- A3, A5. -/
theorem test_add_byte :
    seen (fun t => (t.reg 2, t.reg vF)) (run (withRegs [(2, 0xF0), (15, 0x77)]) 0x7220) = some (0x10, 0x77) := by decide
theorem test_add_byte_ff : seen (fun t => t.reg 0) (run (withRegs [(0, 0x10)]) 0x70FF) = some 0x0F := by decide
/-- A7. -/
theorem test_ld_reg : seen (fun t => (t.reg 0, t.reg 1)) (run (withRegs [(1, 9)]) 0x8010) = some (9, 9) := by decide
/-- A8, A12. -/
theorem test_or :
    seen (fun t => (t.reg 0, t.reg vF)) (run (withRegs [(0, 0x0F), (1, 0xF0), (15, 0x55)]) 0x8011) =
      some (0xFF, 0x55) := by decide
theorem test_or_vf : seen (fun t => t.reg vF) (run (withRegs [(15, 0x0F), (1, 0xF0)]) 0x8F11) = some 0xFF := by decide
/-- A9. -/
theorem test_and :
    seen (fun t => (t.reg 0, t.reg vF)) (run (withRegs [(0, 0x0C), (1, 0x0A), (15, 0x55)]) 0x8012) =
      some (0x08, 0x55) := by decide
/-- A10, A11. -/
theorem test_xor :
    seen (fun t => (t.reg 0, t.reg vF)) (run (withRegs [(0, 0x0C), (1, 0x0A), (15, 0x55)]) 0x8013) =
      some (0x06, 0x55) := by decide
theorem test_xor_same : seen (fun t => t.reg 0) (run (withRegs [(0, 0x5A)]) 0x8003) = some 0 := by decide
/-- A13, A17. -/
theorem test_add :
    seen (fun t => (t.reg 0, t.reg vF)) (run (withRegs [(0, 200), (1, 100)]) 0x8014) = some (44, 1) := by decide
theorem test_add_vf : seen (fun t => t.reg vF) (run (withRegs [(15, 0x10), (1, 0x20)]) 0x8F14) = some 0 := by decide
/-- A21, A22. -/
theorem test_sub_equal :
    seen (fun t => (t.reg 0, t.reg vF)) (run (withRegs [(0, 5), (1, 5)]) 0x8015) = some (0, 1) := by decide
theorem test_sub_borrow :
    seen (fun t => (t.reg 0, t.reg vF)) (run (withRegs [(0, 0), (1, 1)]) 0x8015) = some (0xFF, 0) := by decide
/-- A25, A26. -/
theorem test_subn :
    seen (fun t => (t.reg 0, t.reg vF)) (run (withRegs [(0, 3), (1, 10)]) 0x8017) = some (7, 1) := by decide
theorem test_subn_borrow :
    seen (fun t => (t.reg 0, t.reg vF)) (run (withRegs [(0, 5), (1, 3)]) 0x8017) = some (0xFE, 0) := by decide
/-- A29 and A30: the two values of the quirk. -/
theorem test_shr_vx :
    (fun t : State => (t.reg 3, t.reg vF, t.reg 4)) ((withRegs [(3, 5), (4, 0x10)]).shiftRight false 3 4) =
      (0x02, 1, 0x10) := by decide
theorem test_shr_vy :
    (fun t : State => (t.reg 3, t.reg vF, t.reg 4)) ((withRegs [(3, 5), (4, 0x10)]).shiftRight true 3 4) =
      (0x08, 0, 0x10) := by decide
/-- A35 and A38: the two values of the quirk. -/
theorem test_shl_vx :
    (fun t : State => (t.reg 3, t.reg vF)) ((withRegs [(3, 0x81)]).shiftLeft false 3 4) = (0x02, 1) := by decide
theorem test_shl_vy :
    (fun t : State => (t.reg 0, t.reg vF)) ((withRegs [(1, 0x80)]).shiftLeft true 0 1) = (0x00, 1) := by decide
/-- A40, and A42 for one draw. -/
theorem test_rnd_mask : (State.reset.storeRandom 0xA7 0 0x0F).reg 0 = 0x07 := by decide
theorem test_rnd_full : (State.reset.storeRandom 0xA7 0 0xFF).reg 0 = 0xA7 := by decide

/-! ## Display -/

set_option maxRecDepth 16000 in
/-- D1, on a bitmap with one pixel set. -/
theorem test_cls :
    seen (fun t => (lit t, t.presented.length)) (run { State.reset with fb := Bitmap.flip Bitmap.clear 3 4 } 0x00E0) =
      some (0, 1) := by decide
set_option maxRecDepth 16000 in
/-- D6, D9: wrap of the start coordinates, then clipping. -/
theorem test_drw_clipped :
    seen (fun t => (lit t, t.fb.pixel 62 30, t.fb.pixel 63 30, t.fb.pixel 62 31, t.reg vF))
      (run { withRegs [(1, 126), (2, 62)] with i := 0x50 } 0xD125) = some (3, true, true, true, 0) := by decide
set_option maxRecDepth 16000 in
/-- S5, D4: the second draw of D3's sprite, from the bitmap the first left. -/
theorem test_drw_twice :
    seen (fun t => (lit t, t.reg vF))
      (run { State.reset with i := 0x50, fb := (State.drawSprite { State.reset with i := 0x50 } 1 2 5).fb } 0xD125) =
      some (0, 1) := by decide

/-! ## Index and memory -/

/-- M1, M2. -/
theorem test_ld_i : seen (fun t => (t.pc, t.i)) (run State.reset 0xA300) = some (0x202, 0x300) := by decide
theorem test_ld_i_top : seen State.i (run State.reset 0xAFFF) = some 0xFFF := by decide
/-- M4, M6. -/
theorem test_add_i_wraps :
    seen (fun t => (t.i, t.reg vF)) (run { withRegs [(3, 1)] with i := 0xFFFF } 0xF31E) = some (0, 1) := by decide
theorem test_add_i_vf :
    seen (fun t => (t.i, t.reg vF)) (run { withRegs [(15, 0xFF)] with i := 0x100 } 0xFF1E) = some (0x1FF, 0) := by decide
/-- M9, M10. -/
theorem test_ld_f : seen State.i (run (withRegs [(0, 0x3A)]) 0xF029) = some 0x82 := by decide
theorem test_ld_f_last : seen State.i (run (withRegs [(0, 0x0F)]) 0xF029) = some 0x9B := by decide
/-- S3, M15. -/
theorem test_bcd :
    seen (fun t => (bytes 0x300 3 t, t.i)) (run { withRegs [(0, 123)] with i := 0x300 } 0xF033) =
      some ([1, 2, 3], 0x300) := by decide
theorem test_bcd_outside :
    seen record (run { withRegs [(0, 1)] with i := 0xFFE } 0xF033) =
      some (some (3, 0x200, some 0xF033, some 0x1000)) := by decide
/-- M17 and M18: the two values of the quirk. -/
theorem test_store_regs :
    (fun t : State => (bytes 0x300 5 t, t.i))
      (State.bulkStore { withRegs [(0, 1), (1, 2), (2, 3), (3, 4), (4, 5)] with i := 0x300 } false 3) =
      ([1, 2, 3, 4, 0], 0x300) := by decide
theorem test_store_regs_inc :
    (fun t : State => (bytes 0x300 2 t, t.i)) (State.bulkStore { withRegs [(0, 9), (1, 8)] with i := 0x300 } true 0) =
      ([9, 0], 0x301) := by decide
/-- M24, M25. -/
theorem test_load_regs :
    (fun t : State => ([t.reg 0, t.reg 1, t.reg 4, t.reg 5], t.i))
      (State.bulkLoad { State.reset with i := 0x50 } true 4) = ([0xF0, 0x90, 0xF0, 0], 0x55) := by decide
theorem test_load_regs_outside :
    seen record (run { withRegs [(0, 7)] with i := 0xFFE } 0xF265) =
      some (some (3, 0x200, some 0xF265, some 0x1000)) := by decide

/-! ## Keys and timers -/

/-- K1, K5. -/
theorem test_skp :
    seen State.pc (run { withRegs [(1, 5)] with held := State.reset.held.set 5 true } 0xE19E) = some 0x204 := by decide
theorem test_skp_no_key :
    seen record (run (withRegs [(1, 16)]) 0xE19E) = some (some (6, 0x200, some 0xE19E, some 16)) := by decide
/-- K3, K4. -/
theorem test_sknp : seen State.pc (run (withRegs [(1, 5)]) 0xE1A1) = some 0x204 := by decide
theorem test_sknp_held :
    seen State.pc (run { withRegs [(1, 5)] with held := State.reset.held.set 5 true } 0xE1A1) = some 0x202 := by decide
/-- K8, K9: a key pressed and released in one poll; a key held from an earlier poll. -/
theorem test_await_key :
    seen (fun t => (t.pc, t.reg 2, t.held[4]))
      (run { State.reset with polls := [{ events := [.keyDown 4, .keyUp 4], quit := false }] } 0xF20A) =
      some (0x202, 4, false) := by decide
theorem test_await_key_waits :
    seen (fun t => (t.pc, t.reg 2)) (run { State.reset with held := State.reset.held.set 3 true } 0xF20A) =
      some (0x200, 0) := by decide
/-- K10: either pressed key, by the choice. -/
theorem test_await_key_choice :
    let s := { State.reset with polls := [{ events := [.keyDown 9, .keyDown 2], quit := false }] }.polled
    ((s.awaitKey 0 2).reg 2, (s.awaitKey 1 2).reg 2) = (2, 9) := by decide
/-- K12. -/
theorem test_ld_vx_dt : seen (fun t => t.reg 4) (run { State.reset with dt := 0x3C } 0xF407) = some 0x3C := by decide
/-- K18. -/
theorem test_ld_dt_vx :
    seen (fun t => (t.dt, t.st)) (run { withRegs [(0, 7)] with dt := 4, st := 4 } 0xF015) = some (7, 4) := by decide
/-- K15. -/
theorem test_ld_st_vx : seen (fun t => (t.dt, t.st)) (run (withRegs [(0, 0x20)]) 0xF018) = some (0, 0x20) := by decide

/-! ## Witnesses: what meets the hypotheses of each statement that has any -/

theorem witness_EncodeOfDecodeIsIdentity : decodeWord 0xD125 = .ok (.drw 1 2 5) := by decide

theorem witness_DecoderRejectsExactlyUnimplementedWords :
    wordImplemented 0x00E0 = true ∧ wordImplemented 0x00E1 = false ∧ wordImplemented 0xFFFF = false := by decide

theorem witness_EachWordIsOfAtMostOneRow :
    opcodeRows.length = 34 ∧ decodeWord 0x00E0 = .ok .cls ∧ Instr.rowIndex .cls = 0 ∧
    decodeWord 0xFF65 = .ok (.loadRegs 15) ∧ Instr.rowIndex (.loadRegs 15) = 33 ∧
    decodeWord 0x0000 = .error (.unimplemented 0x0000) := by decide

theorem witness_FetchIsBigEndianInsideMemory :
    ({ State.reset with pc := 0xFFE }).pc.toNat + 1 ≤ 0xFFF ∧ ({ State.reset with pc := 0xFFF }).pc.toNat + 1 > 0xFFF := by
  decide

/-- The last word of memory holds the instruction. -/
theorem witness_StepRunsDecodedInstruction :
    let s := State.withFetchWord { State.reset with pc := 0xFFE } 16 0x6007
    s.run = .running ∧ s.turn = .core ∧ s.nextPoll.quit = false ∧ s.pc.toNat + 1 ≤ 0xFFF ∧
    decodeBytes [Memory.read s.mem s.pc.toNat, Memory.read s.mem (s.pc.toNat + 1)] = .ok (.ldByte 0 7, []) := by decide

theorem witness_FetchOutsideMemoryFaults :
    let s := { State.reset with pc := 0xFFF }
    s.run = .running ∧ s.turn = .core ∧ s.nextPoll.quit = false ∧ s.pc.toNat + 1 > 0xFFF := by decide

theorem witness_UnimplementedWordFaults :
    State.reset.run = .running ∧ State.reset.turn = .core ∧ State.reset.nextPoll.quit = false ∧
    State.reset.fetch = some 0x0000 ∧ wordImplemented 0x0000 = false := by decide

theorem witness_QuitHaltsBeforeFetch :
    let s := { State.reset with polls := [{ events := [.keyDown 4], quit := true }] }
    s.run = .running ∧ s.turn = .core ∧ s.nextPoll.quit = true := by decide

theorem witness_HaltedCoreTakesNoStep :
    ({ State.reset with run := .haltedFault }).run ≠ .running ∧ ({ State.reset with run := .haltedFault }).turn = .core ∧
    ({ State.reset with run := .haltedQuit, schedule := [.timer] }).run ≠ .running ∧
    ({ State.reset with run := .haltedQuit, schedule := [.timer] }).turn = .timer := by decide

theorem witness_FaultsArePrecise :
    State.reset.run = .running ∧ step State.reset = .next (faulted State.reset .unimplementedInstruction (some 0) none) ∧
    (faulted State.reset .unimplementedInstruction (some 0) none).run = .haltedFault := ⟨rfl, rfl, rfl⟩

theorem witness_TickDecrementsEachTimer : ({ State.reset with schedule := [.timer] }).turn = .timer := by decide

/-- A program that jumps to itself (30_encoding.md R112), 0x1200 at 0x200, with the delay timer at d. -/
def spinning (d : Byte) : State := { State.reset with mem := [(0x200, 0x12)], dt := d }

/-- Core and timer engine take turns, the core first. -/
def alternating (n : Nat) : Turn := if n % 2 = 0 then .core { events := [], quit := false } else .timer

theorem fetch_spinning (d : Byte) : (spinning d).fetch = some 0x1200 :=
  (show (spinning d).fetch = (spinning 0).fetch from rfl).trans (by decide)

theorem decode_spinning : decodeWord 0x1200 = .ok (.jp 0x200) := by decide

theorem step_spinning_core (d : Byte) :
    step ((spinning d).given (.core { events := [], quit := false })) = .next (spinning d) := by
  show fetchExecute (spinning d) = _
  rw [fetchExecute, fetch_spinning]
  simp only [decode_spinning]
  rfl

theorem step_spinning_timer (d : Byte) : step ((spinning d).given .timer) = .next (spinning (if d.toNat > 0 then d - 1 else d)) :=
  rfl

/-- A weakly fair infinite run of the spinning program, from DT = 1, in which no instruction writes a timer: the first tick
takes DT to 0. -/
theorem witness_FairRunCountsTimersDownToZero :
    ∃ states : Nat → State, IsRun states alternating ∧ WeaklyFair alternating ∧ (states 0).dt = 1 ∧ (states 2).dt = 0 ∧
      (∀ m, 0 ≤ m → ∀ x p, alternating m = .core p → (states m).nextInstr ≠ some (.ldDtVx x)) ∧
      (∀ m, 0 ≤ m → ∀ x p, alternating m = .core p → (states m).nextInstr ≠ some (.ldStVx x)) := by
  have next : ∀ d, (spinning d).nextInstr = some (.jp 0x200) := fun d => by
    rw [State.nextInstr, fetch_spinning]
    simp only [decode_spinning]
  refine ⟨fun n => spinning (if n < 2 then 1 else 0), fun n => ?_, fun n => ?_, rfl, rfl, ?_, ?_⟩
  · match n with
    | 0 => exact step_spinning_core 1
    | 1 => exact step_spinning_timer 1
    | n + 2 =>
      show step ((spinning 0).given _) = .next (spinning 0)
      unfold alternating
      split
      · exact step_spinning_core 0
      · exact step_spinning_timer 0
  · exact ⟨2 * n + 1, by omega, by unfold alternating; rw [if_neg (by omega)]⟩
  · intro m _ x p _
    simp only [next]
    simp
  · intro m _ x p _
    simp only [next]
    simp

/-- Address 0xFFF, whose second byte is outside memory. -/
theorem witness_JumpSetsPc :
    addrWord 0xFFF = 0xFFF ∧ (State.reset.setPc (addrWord 0xFFF)).fetch = none ∧
    (State.reset.setPc (addrWord 0xFFE)).fetch = some 0x0000 := by decide

theorem witness_JumpWithOffsetAddsRegister :
    (0x000 : Addr12).toNat / 256 = (0 : Reg).val ∧ (0xFFF : Addr12).toNat / 256 = (15 : Reg).val := by decide

theorem witness_CallPushesReturnAddress : ({ State.reset with stack := stackOf 15 }).stack.length < 16 := by decide

theorem witness_ReturnPopsIntoPc :
    ({ State.reset with stack := [0x206] }).stack = [] ++ [0x206] ∧
    ({ State.reset with stack := stackOf 16 }).stack = stackOf 15 ++ [0x202] := by decide

theorem witness_ReturnUndoesCall :
    let s := { State.reset with stack := stackOf 15 }
    let t := { s with stack := stackOf 15 ++ [0x202], pc := 0x210 }
    s.stack.length < 16 ∧ exec (.call 0x210) s = .next t ∧ ({ t with pc := 0x21E }).stack = t.stack := by
  refine ⟨?_, rfl, rfl⟩
  decide

/-- A result register that is not VF, for the statements on the flagged operations. -/
theorem witness_AddSetsCarry : (0 : Reg) ≠ vF ∧ (14 : Reg) ≠ vF := by decide
theorem witness_SubtractionsSetNoBorrow : (0 : Reg) ≠ vF ∧ (14 : Reg) ≠ vF := by decide
theorem witness_ShiftsMoveOutOneBit : (0 : Reg) ≠ vF ∧ (14 : Reg) ≠ vF := by decide

/-- The empty mask (A39), for one draw. -/
theorem witness_RandomByteIsMasked : (State.reset.storeRandom 0xA7 0 0).reg 0 = 0 := by decide

theorem witness_RandomByteAdmitsEveryValue : ∀ k < 8, (0x80 : Byte).getLsbD k = true → (0x80 : Byte).getLsbD k = true := by
  decide

/-- The least and the greatest height at the last place their bytes fit. -/
theorem witness_DrawXorsClippedSprite :
    (1 : Nibble).toNat ≠ 0 ∧ ({ State.reset with i := 0xFFF }).i.toNat + (1 : Nibble).toNat - 1 ≤ 0xFFF ∧
    (15 : Nibble).toNat ≠ 0 ∧ ({ State.reset with i := 0xFF1 }).i.toNat + (15 : Nibble).toNat - 1 ≤ 0xFFF := by decide

/-- The font's first row drawn on a clear bitmap, then again from the state it left. -/
theorem witness_DrawTwiceCancels :
    let s := { State.reset with i := 0x50 }
    let t := s.drawSprite 1 2 1
    (1 : Nibble).toNat ≠ 0 ∧ s.i.toNat + (1 : Nibble).toNat - 1 ≤ 0xFFF ∧ exec (.drw 1 2 1) s = .next t ∧
    t.fb = t.fb ∧ t.i = s.i ∧ t.mem = s.mem ∧ t.reg 1 = s.reg 1 ∧ t.reg 2 = s.reg 2 := by
  refine ⟨by decide, by decide, rfl, rfl, rfl, rfl, ?_, ?_⟩ <;> decide

/-- The bitmap of vector D3: glyph 0 at the top left corner of a clear screen. -/
def glyphZero : Bitmap := (State.drawSprite { State.reset with i := 0x50 } 1 2 5).fb

set_option maxRecDepth 16000 in
/-- The hypotheses of R238's sentence on VF are met here, and its conclusion is false. The first draw is vector D4's, from
the bitmap of D3: it clears the bitmap and sets VF. The second starts from that clear bitmap, so that it is vector D3's
draw, which leaves VF 0. -/
theorem witness_SecondDrawAlwaysCollides :
    let s := { State.reset with i := 0x50, fb := glyphZero }
    let t := s.drawSprite 1 2 5
    let w := t.drawSprite 1 2 5
    exec (.drw 1 2 5) s = .next t ∧ t.i = s.i ∧ t.mem = s.mem ∧ exec (.drw 1 2 5) t = .next w ∧
    (5 : Nibble).toNat ≠ 0 ∧ s.i.toNat + (5 : Nibble).toNat - 1 ≤ 0xFFF ∧ t.reg 1 = s.reg 1 ∧ t.reg 2 = s.reg 2 ∧
    spriteBit s 5 ((s.reg 1).toNat % 64) ((s.reg 2).toNat % 32) 0 0 = true ∧
    lit t = 0 ∧ t.reg vF = 1 ∧ w.fb = glyphZero ∧ w.reg vF = 0 := by
  refine ⟨rfl, rfl, rfl, rfl, ?_, ?_, ?_, ?_, ?_, ?_, ?_, ?_, ?_⟩ <;> decide

theorem witness_OnlyClearAndDrawPresent :
    exec .cls State.reset = .next (State.reset.advance.present Bitmap.clear) ∧
    exec (.drw 1 2 0) State.reset =
      .next (faulted State.reset .unimplementedInstruction (some 0xD120) none) ∧
    ownFault State.reset .cls = none ∧ ownFault State.reset (.drw 1 2 0) = some (.unimplementedInstruction, none) := by
  exact ⟨rfl, rfl, rfl, rfl⟩

theorem witness_BcdStoresThreeDigits : ({ State.reset with i := 0xFFD }).i.toNat + 2 ≤ 0xFFF := by decide

/-- One register at the last byte of memory, and all sixteen at the end of it. -/
theorem witness_BulkStoreWritesRegisters :
    ({ State.reset with i := 0xFFF }).i.toNat + (0 : Reg).val ≤ 0xFFF ∧
    ({ State.reset with i := 0xFF0 }).i.toNat + (15 : Reg).val ≤ 0xFFF := by decide
theorem witness_BulkLoadReadsRegisters :
    ({ State.reset with i := 0xFFF }).i.toNat + (0 : Reg).val ≤ 0xFFF ∧
    ({ State.reset with i := 0xFF0 }).i.toNat + (15 : Reg).val ≤ 0xFFF := by decide

theorem witness_BulkLoadUndoesBulkStore :
    let s := { State.reset with i := 0xFF0 }
    let t := s.bulkStore Config.indexAutoInc 15
    s.i.toNat + (15 : Reg).val ≤ 0xFFF ∧ exec (.storeRegs 15) s = .next t ∧
    ({ t with i := s.i }).mem = t.mem ∧ ({ t with i := s.i }).i = s.i := by
  refine ⟨?_, rfl, rfl, rfl⟩
  decide

/-- P8's store: I is the address of the next instruction. -/
theorem witness_StoreIsSeenByNextFetch :
    let s := { State.reset with pc := 0x206, i := 0x208 }
    1 ≤ (1 : Reg).val ∧ s.i = s.pc + 2 ∧ s.i.toNat + (1 : Reg).val ≤ 0xFFF := by decide

theorem witness_KeySkipsTestHeldFlag :
    ((withRegs [(1, 0)]).reg 1).toNat = (0 : Key).val ∧ ((withRegs [(1, 15)]).reg 1).toNat = (15 : Key).val := by decide

theorem witness_AwaitKeyWaitsOrStoresPressedKey :
    (∀ k : Key, State.reset.pressed[k.val] = false) ∧
    (∃ k : Key, ({ State.reset with pressed := State.reset.pressed.set 15 true }).pressed[k.val] = true) := by decide

theorem witness_AwaitKeyAdmitsEveryPressedKey :
    ({ State.reset with pressed := State.reset.pressed.set 15 true }).pressed[(15 : Key).val] = true := by decide

theorem witness_AwaitKeyNeverWritesDelayTimer : exec (.ldVxK 2) State.reset = .next State.reset := rfl

/-- Where each instruction that can fault does not: at the ends of the ranges. -/
theorem witness_EveryInstructionCompletesInItsFootprint :
    ownFault { State.reset with stack := [0x206] } .ret = none ∧
    ownFault { State.reset with stack := stackOf 15 } (.call 0x210) = none ∧
    ownFault { State.reset with i := 0xFFF } (.drw 1 2 1) = none ∧
    ownFault { State.reset with i := 0xFFD } (.ldB 0) = none ∧
    ownFault { State.reset with i := 0xFF0 } (.storeRegs 15) = none ∧
    ownFault { State.reset with i := 0xFF0 } (.loadRegs 15) = none ∧
    ownFault (withRegs [(1, 15)]) (.skp 1) = none ∧ ownFault (withRegs [(1, 15)]) (.sknp 1) = none ∧
    ownFault State.reset .cls = none := by decide

/-- Where each instruction that can fault does: at the ends of the ranges. -/
theorem witness_EveryOwnFaultIsTaken :
    ownFault State.reset .ret = some (.stackUnderflow, none) ∧
    ownFault { State.reset with stack := stackOf 16 } (.call 0x210) = some (.stackOverflow, none) ∧
    ownFault State.reset (.drw 1 2 0) = some (.unimplementedInstruction, none) ∧
    ownFault { State.reset with i := 0x1000 } (.drw 1 2 1) = some (.memOutOfBounds, some 0x1000) ∧
    ownFault { State.reset with i := 0xFFE } (.ldB 0) = some (.memOutOfBounds, some 0x1000) ∧
    ownFault { State.reset with i := 0xFF1 } (.storeRegs 15) = some (.memOutOfBounds, some 0x1000) ∧
    ownFault { State.reset with i := 0xFFFF } (.loadRegs 15) = some (.memOutOfBounds, some 0x1000E) ∧
    ownFault (withRegs [(1, 16)]) (.skp 1) = some (.keyOutOfRange, some 16) ∧
    ownFault (withRegs [(1, 255)]) (.sknp 1) = some (.keyOutOfRange, some 255) := by decide

/-- One instruction that completes, one that waits, one that takes a fault. -/
theorem witness_EveryInstructionKeepsItsFrame :
    exec (.jp 0x210) State.reset = .next { State.reset with pc := 0x210 } ∧
    exec (.ldVxK 2) State.reset = .next State.reset ∧
    exec .ret State.reset = .next (faulted State.reset .stackUnderflow (some 0x00EE) none) :=
  ⟨rfl, rfl, rfl⟩

theorem witness_SoundTimerIsWrittenAndNeverRead :
    exec (.jp 0x210) State.reset = .next { State.reset with pc := 0x210 } ∧
    exec (.ldStVx 0) (withRegs [(0, 9)]) = .next { withRegs [(0, 9)] with pc := 0x202, st := 9 } := ⟨rfl, rfl⟩

theorem witness_StepKeepsInvariant :
    Inv State.reset ∧ step State.reset = .next (faulted State.reset .unimplementedInstruction (some 0) none) := by
  refine ⟨⟨rfl, by decide, ?_, by decide, by decide, ?_, rfl⟩, rfl⟩
  · intro a h; cases h
  · intro r h; cases h

/-- The longest image, the shortest that is too long, and none. -/
theorem witness_ResetPlacesImageVerbatim :
    (List.replicate 3584 (0 : Byte)).length ≤ 3584 ∧ 3584 < (List.replicate 3585 (0 : Byte)).length ∧
    State.resetWith none = none := by
  refine ⟨List.length_replicate.le, ?_, rfl⟩
  rw [List.length_replicate]
  decide

end Sys2Proof.Machine
end

section
/-! PROOFS. How the state's updates act on the frame of an instruction. `Effect` is `Normal` (Sys2Proof/Safety.lean) with
the two facts the invariant asks of memory and of the bitmap; there is one rule per update of the state, and the meanings
are put together from these rules. -/

namespace Sys2Proof.Machine

/-- `t` comes from `s` by writes inside the footprint, with no fault taken; memory stays canonical, and the bitmap stays
the one presented last. -/
structure Effect (f : Footprint) (s t : State) : Prop where
  normal : Normal f s t
  canonical : Memory.wf s.mem = true → Memory.wf t.mem = true
  shown : s.fb = s.presented.getLastD Bitmap.clear → t.fb = t.presented.getLastD Bitmap.clear

theorem Keeps.refl (f : Footprint) (s : State) : Keeps f s s where
  regs _ _ := rfl
  memory _ _ := rfl
  index _ := rfl
  stack _ := rfl
  delay _ := rfl
  sound _ := rfl
  display _ := ⟨rfl, rfl⟩
  draws _ := rfl
  keypad := ⟨rfl, rfl⟩
  inputs := ⟨rfl, rfl⟩

/-- Taking a fault writes nothing that a footprint speaks of (60_exceptions.md R324). -/
theorem Keeps.faulted (f : Footprint) (s : State) (c : FaultCause) (w : Option Word) (info : Option (BitVec 17)) :
    Keeps f s (faulted s c w info) :=
  { Keeps.refl f s with }

theorem Effect.refl (f : Footprint) (s : State) : Effect f s s := ⟨⟨Keeps.refl f s, rfl, rfl⟩, id, id⟩

section
variable {f : Footprint} {s t : State}

theorem Effect.setPc (h : Effect f s t) (a : Word) : Effect f s (t.setPc a) := by
  obtain ⟨⟨hk, hfault, hrun⟩, hmem, hfb⟩ := h
  exact ⟨⟨{ hk with }, hfault, hrun⟩, hmem, hfb⟩

theorem Effect.advance (h : Effect f s t) : Effect f s t.advance := h.setPc (t.pc + 2)

theorem Effect.skipIf (h : Effect f s t) (cond : Bool) : Effect f s (t.skipIf cond) := by
  rw [skipIf_eq]
  exact h.setPc _

/-- Replacing the register file, where the registers outside the footprint read as before. -/
theorem Effect.setRegs (h : Effect f s t) (v : Vector Byte 16)
    (hv : ∀ q : Reg, q ∉ f.regs → ({ t with v := v } : State).reg q = t.reg q) : Effect f s { t with v := v } := by
  obtain ⟨⟨hk, hfault, hrun⟩, hmem, hfb⟩ := h
  exact ⟨⟨{ hk with regs := fun q hq => (hv q hq).trans (hk.regs q hq) }, hfault, hrun⟩, hmem, hfb⟩

theorem Effect.setReg (h : Effect f s t) {r : Reg} (b : Byte) (hr : r ∈ f.regs) : Effect f s (t.setReg r b) :=
  h.setRegs _ fun q hq => by
    have hne : r ≠ q := fun he => hq (he ▸ hr)
    exact (State.setReg_reg t r b q).trans (if_neg hne)

theorem Effect.loadRegsFrom (h : Effect f s t) {x : Reg} (hx : ∀ q ≤ x, q ∈ f.regs) :
    Effect f s (t.loadRegsFrom x) :=
  h.setRegs _ fun q hq => (State.loadRegsFrom_reg t x q).trans (if_neg fun hle => hq (hx q hle))

theorem Effect.setI (h : Effect f s t) (a : Word) (hi : f.index = true) : Effect f s (t.setI a) := by
  obtain ⟨⟨hk, hfault, hrun⟩, hmem, hfb⟩ := h
  exact ⟨⟨{ hk with index := by simp [hi] }, hfault, hrun⟩, hmem, hfb⟩

theorem Effect.setStack (h : Effect f s t) (l : List Word) (hst : f.stack = true) : Effect f s (t.setStack l) := by
  obtain ⟨⟨hk, hfault, hrun⟩, hmem, hfb⟩ := h
  exact ⟨⟨{ hk with stack := by simp [hst] }, hfault, hrun⟩, hmem, hfb⟩

theorem Effect.setDt (h : Effect f s t) (b : Byte) (hd : f.delay = true) : Effect f s (t.setDt b) := by
  obtain ⟨⟨hk, hfault, hrun⟩, hmem, hfb⟩ := h
  exact ⟨⟨{ hk with delay := by simp [hd] }, hfault, hrun⟩, hmem, hfb⟩

theorem Effect.setSt (h : Effect f s t) (b : Byte) (hs : f.sound = true) : Effect f s (t.setSt b) := by
  obtain ⟨⟨hk, hfault, hrun⟩, hmem, hfb⟩ := h
  exact ⟨⟨{ hk with sound := by simp [hs] }, hfault, hrun⟩, hmem, hfb⟩

theorem Effect.nextDraw (h : Effect f s t) (hd : f.draws = true) : Effect f s t.nextDraw := by
  obtain ⟨⟨hk, hfault, hrun⟩, hmem, hfb⟩ := h
  exact ⟨⟨{ hk with draws := by simp [hd] }, hfault, hrun⟩, hmem, hfb⟩

/-- Presenting a bitmap makes it the one presented last, whatever was shown before (43_display.md R231). -/
theorem Effect.present (h : Effect f s t) (fb : Bitmap) (hd : f.display = true) : Effect f s (t.present fb) := by
  obtain ⟨⟨hk, hfault, hrun⟩, hmem, -⟩ := h
  exact ⟨⟨{ hk with display := by simp [hd] }, hfault, hrun⟩, hmem, fun _ => by simp⟩

/-- Storing a block of bytes inside memory, at addresses the footprint lists (20_memory.md R73). -/
theorem Effect.storeBytes (h : Effect f s t) (a : Nat) (bs : List Byte) (hin : a + bs.length ≤ Config.memSize)
    (hf : ∀ k < bs.length, a + k ∈ f.stored) : Effect f s (t.setMem (Memory.writeBytes t.mem a bs)) := by
  obtain ⟨⟨hk, hfault, hrun⟩, hmem, hfb⟩ := h
  refine ⟨⟨{ hk with memory := fun a' ha' => ?_ }, hfault, hrun⟩, fun hwf => Memory.wf_writeBytes (hmem hwf) a bs, hfb⟩
  have hout : ¬(a ≤ a' ∧ a' < a + bs.length) := by
    rintro ⟨hle, hlt⟩
    have hstored := hf (a' - a) (by omega)
    rw [Nat.add_sub_cancel' hle] at hstored
    exact ha' hstored
  rw [State.setMem_mem, Memory.read_writeBytes _ _ _ _ hin, if_neg hout, hk.memory a' ha']

/-! The operations several meanings share. -/

theorem Effect.writeResult (h : Effect f s t) {x : Reg} (b : Byte) (hx : x ∈ f.regs) : Effect f s (t.writeResult x b) :=
  h.advance.setReg b hx

theorem Effect.writeFlagged (h : Effect f s t) {x : Reg} (b : Byte) (flag : Bool) (hx : x ∈ f.regs) (hF : vF ∈ f.regs) :
    Effect f s (t.writeFlagged x b flag) :=
  (h.writeResult b hx).setReg _ hF

/-- I after a bulk operation: written only where the quirk of 44_index_memory.md R268 is on. -/
theorem Effect.setI_indexAfterBulk (h : Effect f s t) (x : Reg) (autoInc : Bool) (hi : f.index = autoInc)
    (hsame : t.i = s.i) : Effect f s (t.setI (s.indexAfterBulk autoInc x)) := by
  cases autoInc with
  | true => exact h.setI _ hi
  | false =>
    have hnone : t.setI (s.indexAfterBulk false x) = t := by simp [State.indexAfterBulk, State.setI, ← hsame]
    rwa [hnone]

end

end Sys2Proof.Machine
end

section
/-! PROOFS. What `exec` does for each instruction: the fault it raises itself is taken, and where it raises none it completes
within its footprint. -/

namespace Sys2Proof.Machine

/-! The meanings that can fault, where they do and where they do not. -/

theorem accessing_of_le {s done : State} {i : Instr} {last : Nat} (h : last ≤ 0xFFF) :
    s.accessing i last done = done := by
  rw [accessing_eq, if_neg (by omega)]

theorem accessing_of_gt {s done : State} {i : Instr} {last : Nat} (h : last > 0xFFF) :
    s.accessing i last done = faulted s .memOutOfBounds (some (encode i)) (some (.ofNat 17 last)) := by
  rw [accessing_eq, if_pos h]

theorem exec_ret_of_nil {s : State} (h : s.stack = []) :
    exec .ret s = .next (faulted s .stackUnderflow (some (encode .ret)) none) := by
  simp only [exec, execRet, h, List.getLast?_nil, raise_eq_faulted]

theorem exec_ret_of_ne_nil {s : State} (h : s.stack ≠ []) :
    exec .ret s = .next ((s.setStack s.stack.dropLast).setPc (s.stack.getLastD 0)) := by
  have htop : s.stack.getLast? = some (s.stack.getLastD 0) := by
    rw [List.getLast?_eq_getLast_of_ne_nil h, List.getLastD_eq_getLast?, List.getLast?_eq_getLast_of_ne_nil h]
    rfl
  simp only [exec, execRet, htop]

theorem exec_call_of_full {s : State} {nnn : Addr12} (h : s.stack.length ≥ Config.stackDepth) :
    exec (.call nnn) s = .next (faulted s .stackOverflow (some (encode (.call nnn))) none) := by
  simp only [exec, execCall, if_pos h, raise_eq_faulted]

theorem exec_call_of_lt {s : State} {nnn : Addr12} (h : s.stack.length < Config.stackDepth) :
    exec (.call nnn) s = .next ((s.setStack (s.stack ++ [s.pc + 2])).setPc (addrWord nnn)) := by
  simp only [exec, execCall, if_neg (Nat.not_le.2 h), State.advance_pc]

theorem exec_drw_zero {s : State} {x y : Reg} {n : Nibble} (h : n.toNat = 0) :
    exec (.drw x y n) s = .next (faulted s .unimplementedInstruction (some (encode (.drw x y n))) none) := by
  have hn : n = 0 := BitVec.eq_of_toNat_eq h
  simp only [exec, execDrw, if_pos hn, raise_eq_faulted]

theorem exec_drw_of_ne_zero {s : State} {x y : Reg} {n : Nibble} (h : n.toNat ≠ 0) :
    exec (.drw x y n) s =
      .next (s.accessing (.drw x y n) (s.i.toNat + n.toNat - 1) (s.drawSprite x y n)) := by
  have hn : n ≠ 0 := fun he => h (he ▸ rfl)
  simp only [exec, execDrw, if_neg hn]

theorem keySkip_of_gt {s : State} {i : Instr} {b : Byte} {want : Bool} (h : b.toNat > 15) :
    s.keySkip i b want = faulted s .keyOutOfRange (some (encode i)) (some (.ofNat 17 b.toNat)) := by
  rw [keySkip_eq, if_pos h]

theorem keySkip_of_le {s : State} {i : Instr} {b : Byte} {want : Bool} (h : b.toNat ≤ 15) :
    s.keySkip i b want = s.skipIf (s.held[b.toNat]? == some want) := by
  rw [keySkip_eq, if_neg (by omega)]

/-- Every fault an instruction raises itself is taken (60_exceptions.md R322 to R325). -/
theorem exec_of_ownFault {i : Instr} {s : State} {c : FaultCause} {info : Option (BitVec 17)}
    (h : ownFault s i = some (c, info)) : exec i s = .next (faulted s c (some (encode i)) info) := by
  cases i with
  | ret =>
    obtain ⟨hempty, ⟨⟩⟩ := Option.ite_none_right_eq_some.1 h
    exact exec_ret_of_nil (List.eq_nil_of_length_eq_zero hempty)
  | call nnn =>
    obtain ⟨hfull, ⟨⟩⟩ := Option.ite_none_right_eq_some.1 h
    exact exec_call_of_full hfull
  | drw x y n =>
    rw [ownFault] at h
    split at h
    next hzero => cases h; exact exec_drw_zero hzero
    next hne =>
      obtain ⟨hgt, ⟨⟩⟩ := Option.ite_none_right_eq_some.1 h
      rw [exec_drw_of_ne_zero hne, accessing_of_gt hgt]
  | ldB x =>
    obtain ⟨hgt, ⟨⟩⟩ := Option.ite_none_right_eq_some.1 h
    exact congrArg Host.Outcome.next (accessing_of_gt hgt)
  | storeRegs x =>
    obtain ⟨hgt, ⟨⟩⟩ := Option.ite_none_right_eq_some.1 h
    exact congrArg Host.Outcome.next (accessing_of_gt hgt)
  | loadRegs x =>
    obtain ⟨hgt, ⟨⟩⟩ := Option.ite_none_right_eq_some.1 h
    exact congrArg Host.Outcome.next (accessing_of_gt hgt)
  | skp x =>
    obtain ⟨hgt, ⟨⟩⟩ := Option.ite_none_right_eq_some.1 h
    exact congrArg Host.Outcome.next (keySkip_of_gt hgt)
  | sknp x =>
    obtain ⟨hgt, ⟨⟩⟩ := Option.ite_none_right_eq_some.1 h
    exact congrArg Host.Outcome.next (keySkip_of_gt hgt)
  | _ => cases h

/-! Where the meanings leave PC. -/

theorem addrWord_eq_ofNat (nnn : Addr12) : addrWord nnn = .ofNat 16 nnn.toNat := by
  apply BitVec.eq_of_toNat_eq
  rw [addrWord_toNat, BitVec.toNat_ofNat, Nat.mod_eq_of_lt (nnn.isLt.trans (by decide))]

theorem jumpOffsetTarget_v0_eq_ofNat (s : State) (nnn : Addr12) :
    s.jumpOffsetTarget .v0 nnn = .ofNat 16 (nnn.toNat + (s.reg v0).toNat) := by
  have hn := nnn.isLt
  have hb := (s.reg v0).isLt
  apply BitVec.eq_of_toNat_eq
  rw [jumpOffsetTarget_toNat, BitVec.toNat_ofNat, Nat.mod_eq_of_lt (by omega)]

theorem skipIf_pc (s : State) (cond : Bool) (P : Prop) [Decidable P] (h : cond = true ↔ P) :
    (s.skipIf cond).pc = pcAfterSkip s P := by
  simp only [skipIf_eq, State.setPc_pc, pcAfterSkip, h]

theorem pressed_contains_true (s : State) : s.pressed.contains true = true ↔ s.pressedKeys ≠ [] := by
  rw [Vector.contains_iff_mem, Vector.mem_iff_getElem]
  constructor
  · rintro ⟨k, hk, h⟩
    exact List.ne_nil_of_mem ((mem_pressedKeys s ⟨k, hk⟩).2 h)
  · intro hne
    obtain ⟨k, hk⟩ := List.exists_mem_of_ne_nil _ hne
    exact ⟨k.val, k.isLt, (mem_pressedKeys s k).1 hk⟩

/-! An instruction completes: it answers a next state within its footprint, with PC where 10_state.md R38 puts it. -/

/-- The outcome is a completed `i` from `s`. -/
def Completes (i : Instr) (s : State) (o : Host.Outcome State Fault Refusal) : Prop :=
  ∃ t, o = .next t ∧ Effect (footprint s i) s t ∧ t.pc = pcAfter s i

theorem completes_awaitKey (x : Reg) (s : State) (choice : Nat) :
    Completes (.ldVxK x) s (.next (s.awaitKey choice x)) := by
  refine ⟨_, rfl, ?_⟩
  obtain ⟨hnone, heq⟩ | ⟨k, ks, hsome, heq⟩ := awaitKey_cases s choice x
  · have hpc : pcAfter s (.ldVxK x) = s.pc := if_neg (by rw [pressed_contains_true]; exact not_not_intro hnone)
    rw [heq, hpc]
    exact ⟨Effect.refl _ s, rfl⟩
  · have hpc : pcAfter s (.ldVxK x) = s.pc + 2 := if_pos (by rw [pressed_contains_true, hsome]; exact List.cons_ne_nil k ks)
    rw [heq, hpc]
    exact ⟨((Effect.refl _ s).writeResult _ (.head _)).nextDraw rfl, rfl⟩

theorem completes_drawSprite (x y : Reg) (n : Nibble) (s : State) :
    Completes (.drw x y n) s (.next (s.drawSprite x y n)) :=
  ⟨_, rfl, ((Effect.refl _ s).writeResult _ (.head _)).present _ rfl, rfl⟩

theorem completes_storeBcd (x : Reg) (s : State) (hin : s.i.toNat + 2 ≤ 0xFFF) :
    Completes (.ldB x) s (.next (s.advance.setMem (Memory.writeBytes s.mem s.i.toNat (bcdDigits (s.reg x))))) := by
  have hlen : (bcdDigits (s.reg x)).length = 3 := rfl
  refine ⟨_, rfl, (Effect.refl _ s).advance.storeBytes _ _ (by rw [hlen]; exact Nat.succ_le_succ hin) fun k hk => ?_, rfl⟩
  rw [hlen] at hk
  interval_cases k <;> simp [footprint]

theorem completes_bulkStore (x : Reg) (s : State) (hin : s.i.toNat + x.val ≤ 0xFFF) :
    Completes (.storeRegs x) s (.next (s.bulkStore Config.indexAutoInc x)) := by
  refine ⟨_, rfl, Effect.setI_indexAfterBulk ?_ x _ rfl rfl, rfl⟩
  refine (Effect.refl _ s).advance.storeBytes _ _ (by rw [regsUpTo_length]; exact Nat.succ_le_succ hin) fun k hk => ?_
  rw [regsUpTo_length] at hk
  exact List.mem_map.2 ⟨k, List.mem_range.2 hk, rfl⟩

theorem completes_bulkLoad (x : Reg) (s : State) :
    Completes (.loadRegs x) s (.next (s.bulkLoad Config.indexAutoInc x)) := by
  have hload : Effect (footprint s (.loadRegs x)) s (s.advance.loadRegsFrom x) :=
    (Effect.refl _ s).advance.loadRegsFrom fun q hq => by simpa [footprint] using hq
  exact ⟨_, rfl, hload.setI_indexAfterBulk x _ rfl (by simp), by simp [State.bulkLoad, pcAfter]⟩

/-- Every instruction that raises no fault of its own completes. -/
theorem exec_completes {i : Instr} {s : State} (h : ownFault s i = none) : Completes i s (exec i s) := by
  have here : Effect (footprint s i) s s := Effect.refl _ s
  cases i with
  | cls => exact ⟨_, rfl, here.advance.present _ rfl, rfl⟩
  | ret =>
    have hne : s.stack ≠ [] := by simpa [ownFault] using h
    exact ⟨_, exec_ret_of_ne_nil hne, (here.setStack _ rfl).setPc _, rfl⟩
  | jp nnn => exact ⟨_, rfl, here.setPc _, addrWord_eq_ofNat nnn⟩
  | call nnn =>
    have hlt : s.stack.length < Config.stackDepth := by simpa [ownFault] using h
    exact ⟨_, exec_call_of_lt hlt, (here.setStack _ rfl).setPc _, addrWord_eq_ofNat nnn⟩
  | seByte x nn => exact ⟨_, rfl, here.skipIf _, skipIf_pc _ _ _ beq_iff_eq⟩
  | sneByte x nn => exact ⟨_, rfl, here.skipIf _, skipIf_pc _ _ _ bne_iff_ne⟩
  | seReg x y => exact ⟨_, rfl, here.skipIf _, skipIf_pc _ _ _ beq_iff_eq⟩
  | sneReg x y => exact ⟨_, rfl, here.skipIf _, skipIf_pc _ _ _ bne_iff_ne⟩
  | ldByte x nn => exact ⟨_, rfl, here.writeResult _ (.head _), rfl⟩
  | addByte x nn => exact ⟨_, rfl, here.writeResult _ (.head _), rfl⟩
  | ldReg x y => exact ⟨_, rfl, here.writeResult _ (.head _), rfl⟩
  | orReg x y => exact ⟨_, rfl, here.writeResult _ (.head _), rfl⟩
  | andReg x y => exact ⟨_, rfl, here.writeResult _ (.head _), rfl⟩
  | xorReg x y => exact ⟨_, rfl, here.writeResult _ (.head _), rfl⟩
  | addReg x y => exact ⟨_, rfl, here.writeFlagged _ _ (.head _) (.tail _ (.head _)), rfl⟩
  | subReg x y => exact ⟨_, rfl, here.writeFlagged _ _ (.head _) (.tail _ (.head _)), rfl⟩
  | shrReg x y => exact ⟨_, rfl, here.writeFlagged _ _ (.head _) (.tail _ (.head _)), rfl⟩
  | subnReg x y => exact ⟨_, rfl, here.writeFlagged _ _ (.head _) (.tail _ (.head _)), rfl⟩
  | shlReg x y => exact ⟨_, rfl, here.writeFlagged _ _ (.head _) (.tail _ (.head _)), rfl⟩
  | ldI nnn => exact ⟨_, rfl, here.advance.setI _ rfl, rfl⟩
  | jpV0 nnn => exact ⟨_, rfl, here.setPc _, jumpOffsetTarget_v0_eq_ofNat s nnn⟩
  | rnd x nn => exact ⟨_, rfl, (here.writeResult _ (.head _)).nextDraw rfl, rfl⟩
  | drw x y n =>
    have hpos : n.toNat ≠ 0 := fun h0 => by simp [ownFault, h0] at h
    have hin : s.i.toNat + n.toNat - 1 ≤ 0xFFF := by simpa [ownFault, hpos] using h
    rw [exec_drw_of_ne_zero hpos, accessing_of_le hin]
    exact completes_drawSprite x y n s
  | skp x =>
    have hle : (s.reg x).toNat ≤ 15 := by simpa [ownFault] using h
    exact ⟨_, congrArg Host.Outcome.next (keySkip_of_le hle), here.skipIf _, skipIf_pc _ _ _ beq_iff_eq⟩
  | sknp x =>
    have hle : (s.reg x).toNat ≤ 15 := by simpa [ownFault] using h
    exact ⟨_, congrArg Host.Outcome.next (keySkip_of_le hle), here.skipIf _, skipIf_pc _ _ _ beq_iff_eq⟩
  | ldVxDt x => exact ⟨_, rfl, here.writeResult _ (.head _), rfl⟩
  | ldVxK x => exact completes_awaitKey x s _
  | ldDtVx x => exact ⟨_, rfl, here.advance.setDt _ rfl, rfl⟩
  | ldStVx x => exact ⟨_, rfl, here.advance.setSt _ rfl, rfl⟩
  | addI x => exact ⟨_, rfl, (here.advance.setI _ rfl).setReg _ (.head _), rfl⟩
  | ldF x => exact ⟨_, rfl, here.advance.setI _ rfl, rfl⟩
  | ldB x =>
    have hin : s.i.toNat + 2 ≤ 0xFFF := by simpa [ownFault] using h
    rw [exec, execLdB, accessing_of_le hin]
    exact completes_storeBcd x s hin
  | storeRegs x =>
    have hin : s.i.toNat + x.val ≤ 0xFFF := by simpa [ownFault] using h
    rw [exec, execStoreRegs, accessing_of_le hin]
    exact completes_bulkStore x s hin
  | loadRegs x =>
    have hin : s.i.toNat + x.val ≤ 0xFFF := by simpa [ownFault] using h
    rw [exec, execLoadRegs, accessing_of_le hin]
    exact completes_bulkLoad x s

/-- Every way an instruction answers a next state: it takes a fault of its own, or it completes. -/
theorem exec_cases {i : Instr} {s t : State} (h : exec i s = .next t) :
    (∃ c info, ownFault s i = some (c, info) ∧ t = faulted s c (some (encode i)) info) ∨
    (ownFault s i = none ∧ Effect (footprint s i) s t ∧ t.pc = pcAfter s i) := by
  cases hown : ownFault s i with
  | some p =>
    rw [exec_of_ownFault hown] at h
    cases h
    exact .inl ⟨p.1, p.2, rfl, rfl⟩
  | none =>
    obtain ⟨t', ht', heff, hpc⟩ := exec_completes hown
    rw [ht'] at h
    cases h
    exact .inr ⟨rfl, heff, hpc⟩

/-- Settles O50: each meaning is put together from updates inside its footprint. -/
theorem everyInstructionCompletesInItsFootprint : Obligations.EveryInstructionCompletesInItsFootprint := by
  intro i s hown
  obtain ⟨t, ht, heff, hpc⟩ := exec_completes hown
  exact ⟨t, ht, heff.normal, hpc⟩

/-- Settles O52: a taken fault writes nothing a footprint lists, and a completed instruction stays inside it. -/
theorem everyInstructionKeepsItsFrame : Obligations.EveryInstructionKeepsItsFrame := by
  intro i s t h
  obtain ⟨c, info, -, rfl⟩ | ⟨-, heff, -⟩ := exec_cases h
  · exact Keeps.faulted _ s c _ info
  · exact heff.normal.1

end Sys2Proof.Machine
end

section
/-! PROOFS. A word that does not decode is one that the list of unimplemented encodings holds (spec/30_encoding.md R106). -/

namespace Sys2Proof

/-- The low byte of a word, as a number. -/
theorem decodeFields_nn_toNat (w : Word) : (decodeFields w).nn.toNat = w.toNat % 0x100 := by
  simp [decodeFields]

/-- The address field of a word, as a number. -/
theorem decodeFields_nnn_toNat (w : Word) : (decodeFields w).nnn.toNat = w.toNat % 0x1000 := by
  simp [decodeFields]

/-- The operations class 0x8 does not have (R106). -/
theorem decodeAlu_eq_none {f : Fields} (h : decodeAlu f = none) :
    f.n.toNat ∈ [0x8, 0x9, 0xA, 0xB, 0xC, 0xD, 0xF] := by
  have hn := f.n.isLt
  unfold decodeAlu at h
  split at h
  case h_10 =>
    simp only [imp_false, ← BitVec.toNat_inj, BitVec.toNat_ofNat, Nat.reducePow, Nat.reduceMod] at *
    simp only [List.mem_cons, List.not_mem_nil, or_false]
    omega
  all_goals cases h

/-- A byte class 0xF rejects is none of its operations (R105). -/
theorem decodeMisc_eq_none {f : Fields} (h : decodeMisc f = none) :
    f.nn.toNat ∉ [0x07, 0x0A, 0x15, 0x18, 0x1E, 0x29, 0x33, 0x55, 0x65] := by
  unfold decodeMisc at h
  split at h
  case h_10 => simp_all [← BitVec.toNat_inj]
  all_goals cases h

/-- Where the selection by class finds no instruction: one case per class that rejects (R105). -/
theorem selectInstr_eq_none {f : Fields} (h : selectInstr f = none) :
    (f.op.toNat = 0x0 ∧ f.nnn.toNat ≠ 0x0E0 ∧ f.nnn.toNat ≠ 0x0EE) ∨
    ((f.op.toNat = 0x5 ∨ f.op.toNat = 0x9) ∧ f.n.toNat ≠ 0) ∨
    (f.op.toNat = 0x8 ∧ decodeAlu f = none) ∨
    (f.op.toNat = 0xE ∧ f.nn.toNat ≠ 0x9E ∧ f.nn.toNat ≠ 0xA1) ∨
    (f.op.toNat = 0xF ∧ decodeMisc f = none) := by
  have hop := f.op.isLt
  unfold selectInstr at h
  split at h
  case h_1 hc =>
    split_ifs at h with h1 h2
    exact .inl ⟨congrArg BitVec.toNat hc, BitVec.toNat_ne.1 h1, BitVec.toNat_ne.1 h2⟩
  case h_6 hc =>
    split_ifs at h with h1
    exact .inr (.inl ⟨.inl (congrArg BitVec.toNat hc), BitVec.toNat_ne.1 h1⟩)
  case h_9 hc => exact .inr (.inr (.inl ⟨congrArg BitVec.toNat hc, h⟩))
  case h_10 hc =>
    split_ifs at h with h1
    exact .inr (.inl ⟨.inr (congrArg BitVec.toNat hc), BitVec.toNat_ne.1 h1⟩)
  case h_15 hc =>
    split_ifs at h with h1 h2
    exact .inr (.inr (.inr (.inl ⟨congrArg BitVec.toNat hc, BitVec.toNat_ne.1 h1, BitVec.toNat_ne.1 h2⟩)))
  case h_16 hc => exact .inr (.inr (.inr (.inr ⟨congrArg BitVec.toNat hc, h⟩)))
  case h_17 =>
    simp only [imp_false, ← BitVec.toNat_inj, BitVec.toNat_ofNat, Nat.reducePow, Nat.reduceMod] at *
    interval_cases f.op.toNat <;> contradiction
  all_goals cases h

/-- A word no instruction is selected for is on the list of R106. -/
theorem wordImplemented_of_select_none {w : Word} (h : selectInstr (decodeFields w) = none) :
    wordImplemented w = false := by
  have hop := decodeFields_op_toNat w
  have hnnn := decodeFields_nnn_toNat w
  obtain ⟨hc, h1, h2⟩ | ⟨hc, h1⟩ | ⟨hc, h1⟩ | ⟨hc, h1, h2⟩ | ⟨hc, h1⟩ := selectInstr_eq_none h
  · have hw1 : w.toNat ≠ 0xE0 := fun hw => h1 (by rw [hnnn, hw])
    have hw2 : w.toNat ≠ 0xEE := fun hw => h2 (by rw [hnnn, hw])
    simp [wordImplemented, ← hop, hc, hw1, hw2]
  · rw [decodeFields_n_toNat] at h1
    rcases hc with hc | hc <;> simp [wordImplemented, ← hop, hc, h1]
  · have hin := decodeAlu_eq_none h1
    rw [decodeFields_n_toNat] at hin
    simp only [wordImplemented, ← hop, hc, List.contains_iff_mem.2 hin]
    rfl
  · rw [decodeFields_nn_toNat] at h1 h2
    simp [wordImplemented, ← hop, hc, h1, h2]
  · have hin := decodeMisc_eq_none h1
    rw [decodeFields_nn_toNat] at hin
    simp only [wordImplemented, ← hop, hc]
    simp [hin]

end Sys2Proof
end

section
/-! PROOFS. The invariant along a step: what it reads of the state, the states a fault and a quit leave, and the bounds of
PC and of the return addresses. -/

namespace Sys2Proof.Machine

section
variable {s t : State}

/-- The invariant speaks of seven fields only. -/
theorem Inv.congr (h : Inv s) (hmem : t.mem = s.mem) (hstack : t.stack = s.stack) (hpc : t.pc = s.pc)
    (hrun : t.run = s.run) (hfault : t.fault = s.fault) (hfb : t.fb = s.fb) (hpres : t.presented = s.presented) :
    Inv t where
  memory := hmem ▸ h.memory
  depth := hstack ▸ h.depth
  returns := hstack ▸ h.returns
  pc := hpc ▸ h.pc
  status := by rw [hrun, hfault]; exact h.status
  record := by rw [hfault, hpc]; exact h.record
  shown := by rw [hfb, hpres]; exact h.shown

theorem Inv.takeTurn (h : Inv s) : Inv s.takeTurn := h.congr rfl rfl rfl rfl rfl rfl rfl

theorem Inv.tick (h : Inv s) : Inv s.tick := h.congr rfl rfl rfl rfl rfl rfl rfl

theorem Inv.polled (h : Inv s) : Inv s.polled := h.congr rfl rfl rfl rfl rfl rfl rfl

/-- A running core has no fault record (10_state.md R48, R49). -/
theorem Inv.fault_eq_none (h : Inv s) (hrun : s.run = .running) : s.fault = none := by
  rw [← Option.not_isSome_iff_eq_none, ← h.status, hrun]
  decide

theorem Inv.quitCore (h : Inv s) (hrun : s.run = .running) : Inv s.quitCore :=
  { h with
    status := by simp [h.fault_eq_none hrun]
    record := fun r hr => h.record r hr }

/-- Taking a fault keeps the invariant where the record has the fields of its cause (60_exceptions.md R322, R324). -/
theorem Inv.faulted (h : Inv s) {c : FaultCause} {w : Option Word} {info : Option (BitVec 17)}
    (hwf : FaultRecord.wf { cause := c, pc := s.pc, word := w, info := info } = true) : Inv (faulted s c w info) :=
  { h with
    status := by simp [Machine.faulted]
    record := fun r hr => by cases hr; exact ⟨hwf, rfl⟩ }

/-- A completed instruction keeps the invariant where it keeps the bounds of the stack and of PC. -/
theorem Inv.of_effect {f : Footprint} (h : Inv s) (heff : Effect f s t) (hdepth : t.stack.length ≤ Config.stackDepth)
    (hreturns : ∀ a ∈ t.stack, a.toNat ≤ 0x1000) (hpc : t.pc.toNat ≤ 0x10FE) (hrun : s.run = .running) : Inv t := by
  obtain ⟨⟨-, hfault', hrun'⟩, hmem, hfb⟩ := heff
  have hnone : t.fault = none := hfault'.trans (h.fault_eq_none hrun)
  exact {
    memory := hmem h.memory
    depth := hdepth
    returns := hreturns
    pc := hpc
    status := by simp [hrun', hrun, hnone]
    record := by simp [hnone]
    shown := hfb h.shown }

end

/-! The records of the faults a step can take. -/

theorem pc_le_of_fetch {s : State} {w : Word} (h : s.fetch = some w) : s.pc.toNat ≤ 0xFFE := by
  rw [fetch_eq, Option.ite_none_left_eq_some] at h
  omega

theorem pcOutOfBounds_record_wf {s : State} (h : s.fetch = none) :
    FaultRecord.wf { cause := .pcOutOfBounds, pc := s.pc, word := none, info := none } = true := by
  simpa [FaultRecord.wf, fetch_eq] using h

theorem unimplemented_record_wf {pc w : Word} (h : ∀ i, decodeWord w ≠ .ok i) :
    FaultRecord.wf { cause := .unimplementedInstruction, pc := pc, word := some w, info := none } = true := by
  have hsel : selectInstr (decodeFields w) = none :=
    Option.eq_none_iff_forall_ne_some.2 fun i hi => h i (decodeWord_of_select hi)
  simp [FaultRecord.wf, wordFaults, wordImplemented_of_select_none hsel]

/-- The highest address of an access that does not lie in memory, in the record's field for it. -/
theorem outOfBounds_info {last : Nat} (hgt : last > 0xFFF) (hle : last ≤ 0x1000E) :
    0x1000 ≤ (BitVec.ofNat 17 last).toNat ∧ (BitVec.ofNat 17 last).toNat ≤ 0x1000E := by
  rw [BitVec.toNat_ofNat, Nat.mod_eq_of_lt (by omega)]
  omega

theorem memOutOfBounds_record_wf {pc w : Word} {last : Nat} (hw : w.toNat / 0x1000 = 0xD ∨ w.toNat / 0x1000 = 0xF)
    (hgt : last > 0xFFF) (hle : last ≤ 0x1000E) :
    FaultRecord.wf { cause := .memOutOfBounds, pc := pc, word := some w, info := some (.ofNat 17 last) } = true := by
  obtain ⟨hlow, hhigh⟩ := outOfBounds_info hgt hle
  simp only [FaultRecord.wf, hlow, hhigh]
  simpa using hw

theorem keyOutOfRange_record_wf {pc w : Word} {b : Byte} (hw : w.toNat / 0x1000 = 0xE) (hgt : b.toNat > 15) :
    FaultRecord.wf { cause := .keyOutOfRange, pc := pc, word := some w, info := some (.ofNat 17 b.toNat) } = true := by
  have hb := b.isLt
  have hval : (BitVec.ofNat 17 b.toNat).toNat = b.toNat := by
    rw [BitVec.toNat_ofNat, Nat.mod_eq_of_lt (by omega)]
  simp only [FaultRecord.wf, hval, hw]
  simp; omega

/-- The record of an instruction's own fault has the fields and the values of its cause (60_exceptions.md R322). -/
theorem ownFault_record_wf {i : Instr} {s : State} {c : FaultCause} {info : Option (BitVec 17)}
    (h : ownFault s i = some (c, info)) :
    FaultRecord.wf { cause := c, pc := s.pc, word := some (encode i), info := info } = true := by
  have hi := s.i.isLt
  cases i with
  | ret => obtain ⟨-, ⟨⟩⟩ := Option.ite_none_right_eq_some.1 h; rfl
  | call nnn =>
    obtain ⟨-, ⟨⟩⟩ := Option.ite_none_right_eq_some.1 h
    exact beq_iff_eq.2 (encodeA_top 0x2 nnn)
  | drw x y n =>
    have hn := n.isLt
    have htop : (encode (.drw x y n)).toNat / 0x1000 = 0xD := encodeRR_top 0xD x y n
    rw [ownFault] at h
    split at h
    next hzero =>
      cases h
      have hlow : (encode (.drw x y n)).toNat % 0x10 = 0 := (encodeRR_low 0xD x y n).trans hzero
      simp [FaultRecord.wf, wordFaults, htop, hlow]
    next hne =>
      obtain ⟨hgt, ⟨⟩⟩ := Option.ite_none_right_eq_some.1 h
      exact memOutOfBounds_record_wf (.inl htop) hgt (by omega)
  | ldB x =>
    obtain ⟨hgt, ⟨⟩⟩ := Option.ite_none_right_eq_some.1 h
    exact memOutOfBounds_record_wf (.inr (encodeRB_top 0xF x 0x33)) hgt (by omega)
  | storeRegs x =>
    obtain ⟨hgt, ⟨⟩⟩ := Option.ite_none_right_eq_some.1 h
    exact memOutOfBounds_record_wf (.inr (encodeRB_top 0xF x 0x55)) hgt (by omega)
  | loadRegs x =>
    obtain ⟨hgt, ⟨⟩⟩ := Option.ite_none_right_eq_some.1 h
    exact memOutOfBounds_record_wf (.inr (encodeRB_top 0xF x 0x65)) hgt (by omega)
  | skp x =>
    obtain ⟨hgt, ⟨⟩⟩ := Option.ite_none_right_eq_some.1 h
    exact keyOutOfRange_record_wf (encodeRB_top 0xE x 0x9E) hgt
  | sknp x =>
    obtain ⟨hgt, ⟨⟩⟩ := Option.ite_none_right_eq_some.1 h
    exact keyOutOfRange_record_wf (encodeRB_top 0xE x 0xA1) hgt
  | _ => cases h

/-! The bounds after an instruction that was fetched from inside memory. -/

theorem getLastD_zero_le {l : List Word} {n : Nat} (h : ∀ a ∈ l, a.toNat ≤ n) : (l.getLastD 0).toNat ≤ n := by
  rw [List.getLastD_eq_getLast?]
  cases hl : l.getLast? with
  | none => exact Nat.zero_le n
  | some a => exact h a (List.mem_of_getLast? hl)

theorem add_two_toNat_le {pc : Word} (h : pc.toNat ≤ 0xFFE) : (pc + 2).toNat ≤ 0x1000 := by
  bv_omega

theorem pcAfterSkip_toNat_le {s : State} {P : Prop} [Decidable P] (h : s.pc.toNat ≤ 0xFFE) :
    (pcAfterSkip s P).toNat ≤ 0x1002 := by
  unfold pcAfterSkip
  split
  · bv_omega
  · bv_omega

/-- PC stays at or below the highest jump target (41_control_flow.md R168). -/
theorem pcAfter_toNat_le {s : State} {i : Instr} (hinv : Inv s) (hpc : s.pc.toNat ≤ 0xFFE) :
    (pcAfter s i).toNat ≤ 0x10FE := by
  have hnext : (s.pc + 2).toNat ≤ 0x10FE := (add_two_toNat_le hpc).trans (by decide)
  have hskip : ∀ (P : Prop) [Decidable P], (pcAfterSkip s P).toNat ≤ 0x10FE := fun P _ =>
    (pcAfterSkip_toNat_le hpc).trans (by decide)
  cases i with
  | ret => exact (getLastD_zero_le hinv.returns).trans (by decide)
  | jp nnn => rw [pcAfter, BitVec.toNat_ofNat]; omega
  | call nnn => rw [pcAfter, BitVec.toNat_ofNat]; omega
  | jpV0 nnn =>
    have hb := (s.reg v0).isLt
    rw [pcAfter, BitVec.toNat_ofNat]
    omega
  | seByte x nn => exact hskip _
  | sneByte x nn => exact hskip _
  | seReg x y => exact hskip _
  | sneReg x y => exact hskip _
  | skp x => exact hskip _
  | sknp x => exact hskip _
  | ldVxK x =>
    rw [pcAfter]
    split
    · exact hnext
    · exact hinv.pc
  | _ => exact hnext

/-- An instruction that completes keeps the stack, pops it, or pushes the address after its own on a stack that is not
full (10_state.md R40, R41). -/
theorem exec_stack_cases {s t : State} {i : Instr} (h : exec i s = .next t) (hown : ownFault s i = none)
    (heff : Effect (footprint s i) s t) :
    t.stack = s.stack ∨ t.stack = s.stack.dropLast ∨
      (s.stack.length < Config.stackDepth ∧ t.stack = s.stack ++ [s.pc + 2]) := by
  cases i with
  | ret =>
    have hne : s.stack ≠ [] := by simpa [ownFault] using hown
    rw [exec_ret_of_ne_nil hne] at h
    cases h
    exact .inr (.inl rfl)
  | call nnn =>
    have hlt : s.stack.length < Config.stackDepth := by simpa [ownFault] using hown
    rw [exec_call_of_lt hlt] at h
    cases h
    exact .inr (.inr ⟨hlt, rfl⟩)
  | _ => exact .inl (heff.normal.1.stack rfl)

/-- The bounds of the stack after an instruction that completes (10_state.md R40, decision D50). -/
theorem exec_stack_bounds {s t : State} {i : Instr} (h : exec i s = .next t) (hown : ownFault s i = none)
    (heff : Effect (footprint s i) s t) (hinv : Inv s) (hpc : s.pc.toNat ≤ 0xFFE) :
    t.stack.length ≤ Config.stackDepth ∧ ∀ a ∈ t.stack, a.toNat ≤ 0x1000 := by
  obtain hsame | hpop | ⟨hlt, hpush⟩ := exec_stack_cases h hown heff
  · rw [hsame]
    exact ⟨hinv.depth, hinv.returns⟩
  · rw [hpop, List.length_dropLast]
    exact ⟨(Nat.sub_le _ _).trans hinv.depth, fun a ha => hinv.returns a (List.mem_of_mem_dropLast ha)⟩
  · rw [hpush, List.length_append]
    refine ⟨hlt, fun a ha => ?_⟩
    rcases List.mem_append.1 ha with ha | ha
    · exact hinv.returns a ha
    · rw [List.mem_singleton.1 ha]
      exact add_two_toNat_le hpc

/-- An instruction fetched from inside memory by a running core keeps the invariant. -/
theorem exec_keeps_inv {s t : State} {i : Instr} (hinv : Inv s) (hrun : s.run = .running) (hpc : s.pc.toNat ≤ 0xFFE)
    (h : exec i s = .next t) : Inv t := by
  obtain ⟨c, info, hown, rfl⟩ | ⟨hown, heff, hpc'⟩ := exec_cases h
  · exact hinv.faulted (ownFault_record_wf hown)
  · obtain ⟨hdepth, hreturns⟩ := exec_stack_bounds h hown heff hinv hpc
    exact hinv.of_effect heff hdepth hreturns (hpc' ▸ pcAfter_toNat_le hinv hpc) hrun

theorem fetchExecute_keeps_inv {s t : State} (hinv : Inv s) (hrun : s.run = .running)
    (h : fetchExecute s = .next t) : Inv t := by
  obtain ⟨hnone, rfl⟩ | ⟨w, -, hbad, rfl⟩ | ⟨w, i, hw, -, hexec⟩ := fetchExecute_cases h
  · exact hinv.faulted (pcOutOfBounds_record_wf hnone)
  · exact hinv.faulted (unimplemented_record_wf hbad)
  · exact exec_keeps_inv hinv hrun (pc_le_of_fetch hw) hexec

/-- Settles O53: by the ways a step answers a next state; an instruction executes only where its fetch lay in memory,
which bounds PC and the address a call pushes. -/
theorem stepKeepsInvariant : Obligations.StepKeepsInvariant := by
  intro s t hinv h
  obtain ⟨-, rfl⟩ | ⟨-, hrun, -, rfl⟩ | ⟨-, hrun, -, hexec⟩ := step_cases h
  · exact hinv.takeTurn.tick
  · exact hinv.takeTurn.polled.quitCore hrun
  · exact fetchExecute_keeps_inv hinv.takeTurn.polled hrun hexec

end Sys2Proof.Machine
end

section
/-! PROOFS. The keypad after a poll (spec/10_state.md R47, decision D36), by induction on the poll's events. -/

namespace Sys2Proof.Machine

/-- The key an event is about. -/
def KeyEvent.key : KeyEvent → Key
  | .keyDown k => k
  | .keyUp k => k

/-- What an event says of its key: held or not. -/
def KeyEvent.isDown : KeyEvent → Bool
  | .keyDown _ => true
  | .keyUp _ => false

/-- The test for the events about a key, as the statement O11 writes it. -/
theorem KeyEvent.about_eq (e : KeyEvent) (k : Key) : (e == .keyDown k || e == .keyUp k) = decide (e.key = k) := by
  rw [Bool.eq_iff_iff, decide_eq_true_iff]
  cases e <;> simp [KeyEvent.key]

theorem heldAfter_getElem (held : Vector Bool 16) (e : KeyEvent) (k : Key) :
    (heldAfter held e)[k.val] = if e.key = k then e.isDown else held[k.val] := by
  cases e <;> simp only [heldAfter, Vector.getElem_set, KeyEvent.key, KeyEvent.isDown, Fin.ext_iff]

theorem pressedAfter_getElem (pressed : Vector Bool 16) (e : KeyEvent) (k : Key) :
    (pressedAfter pressed e)[k.val] = true ↔ e = .keyDown k ∨ pressed[k.val] = true := by
  cases e with
  | keyDown j =>
    simp only [pressedAfter, Vector.getElem_set, KeyEvent.keyDown.injEq, Fin.ext_iff]
    split <;> simp_all
  | keyUp j => simp [pressedAfter]

/-- A key is pressed after the events iff one of them was its key-down, or it was pressed before them. -/
theorem pressed_after_events (events : List KeyEvent) (pressed : Vector Bool 16) (k : Key) :
    (events.foldl pressedAfter pressed)[k.val] = true ↔ .keyDown k ∈ events ∨ pressed[k.val] = true := by
  induction events generalizing pressed with
  | nil => simp
  | cons e events ih =>
    rw [List.foldl_cons, ih, pressedAfter_getElem, List.mem_cons, eq_comm (a := e)]
    tauto

/-- A key's held flag after the events is what the last event about it says. -/
theorem held_after_events (events : List KeyEvent) (held : Vector Bool 16) (k : Key) :
    (events.foldl heldAfter held)[k.val] =
      (events.filter fun e => e == .keyDown k || e == .keyUp k).getLast?.elim held[k.val] KeyEvent.isDown := by
  induction events using List.reverseRecOn with
  | nil => rfl
  | append_singleton events e ih =>
    rw [List.foldl_append, List.foldl_cons, List.foldl_nil, heldAfter_getElem, ih, List.filter_append]
    by_cases hk : e.key = k
    · simp [KeyEvent.about_eq, hk]
    · simp [KeyEvent.about_eq, hk]

/-- Settles O11: the poll folds its events over cleared pressed flags and over the held flags as they were. -/
theorem pollAppliesKeyEventsInOrder : Obligations.PollAppliesKeyEventsInOrder := by
  intro s k
  constructor
  · rw [State.polled_pressed, pressed_after_events]
    simp
  · simp only [State.polled_held, held_after_events]
    cases (s.nextPoll.events.filter fun e => e == .keyDown k || e == .keyUp k).getLast? with
    | none => rfl
    | some e => cases e <;> rfl

end Sys2Proof.Machine
end

section
/-! PROOFS. The turns of a halted core (spec/10_state.md R49) and the values after reset (R53). -/

namespace Sys2Proof.Machine

/-- Settles O12: a halted core's turn is stuck, and the timer engine's turn is a tick. -/
theorem haltedCoreTakesNoStep : Obligations.HaltedCoreTakesNoStep := by
  intro s hrun
  exact ⟨step_of_halted hrun, fun hturn => ⟨_, step_of_timer hturn, rfl⟩⟩

/-- Settles O55: the registers and the keypad are uniform, the bitmap is the clear one, and the rest is the reset state's
own text. -/
theorem resetLeavesStatedValues : Obligations.ResetLeavesStatedValues := by
  have hpixels : ∀ px py, Bitmap.pixel State.reset.fb px py = false := Bitmap.pixel_clear
  have hregs : ∀ r : Reg, State.reset.reg r = 0 := fun r => Vector.getElem_replicate r.isLt
  have hkeys : ∀ k : Key, State.reset.held[k.val] = false ∧ State.reset.pressed[k.val] = false := fun k =>
    ⟨Vector.getElem_replicate k.isLt, Vector.getElem_replicate k.isLt⟩
  exact ⟨hregs, rfl, rfl, rfl, rfl, rfl, hpixels, hkeys, rfl, rfl⟩

end Sys2Proof.Machine
end

section
/-! PROOFS. A bulk store and the fetch that follows it read the same memory (spec/20_memory.md R85, decision D34). -/

namespace Sys2Proof.Machine

/-- The bulk store where its last byte lies inside memory (44_index_memory.md R266). -/
theorem exec_storeRegs_of_le {s : State} {x : Reg} (h : s.i.toNat + x.val ≤ 0xFFF) :
    exec (.storeRegs x) s = .next (s.bulkStore Config.indexAutoInc x) :=
  congrArg Host.Outcome.next (accessing_of_le h)

@[simp] theorem bulkStore_pc (s : State) (autoInc : Bool) (x : Reg) : (s.bulkStore autoInc x).pc = s.pc + 2 := rfl

/-- The byte a bulk store inside memory leaves for each register it stores. -/
theorem read_bulkStore {s : State} {x r : Reg} (autoInc : Bool) (hin : s.i.toNat + x.val ≤ 0xFFF) (hr : r ≤ x) :
    Memory.read (s.bulkStore autoInc x).mem (s.i.toNat + r.val) = s.reg r := by
  have hblock : s.i.toNat + (s.regsUpTo x).length ≤ Config.memSize := by
    rw [regsUpTo_length]
    exact Nat.succ_le_succ hin
  have hrx : r.val < (s.regsUpTo x).length := by
    rw [regsUpTo_length]
    exact Nat.lt_succ_of_le hr
  rw [bulkStore_eq, Memory.read_writeBytes _ _ _ _ hblock, if_pos ⟨Nat.le_add_right _ _, Nat.add_lt_add_left hrx _⟩,
    Nat.add_sub_cancel_left, regsUpTo_getD s x r hr]

/-- The fetch at a PC whose second byte lies inside memory (40_cycle.md R132). -/
theorem fetch_of_le {s : State} (h : s.pc.toNat + 1 ≤ 0xFFF) :
    s.fetch = some (wordOfBytes (Memory.read s.mem s.pc.toNat) (Memory.read s.mem (s.pc.toNat + 1))) := by
  rw [fetch_eq, if_neg (Nat.not_lt.2 h)]

/-- After a bulk store of at least two bytes over the next instruction, the fetch reads V0 and V1. -/
theorem fetch_bulkStore {s : State} {x : Reg} (autoInc : Bool) (hx : 1 ≤ x.val) (hi : s.i = s.pc + 2)
    (hin : s.i.toNat + x.val ≤ 0xFFF) :
    (s.bulkStore autoInc x).fetch = some (wordOfBytes (s.reg 0) (s.reg 1)) := by
  have hpc : (s.bulkStore autoInc x).pc = s.i := (bulkStore_pc s autoInc x).trans hi.symm
  have hhigh : Memory.read (s.bulkStore autoInc x).mem s.i.toNat = s.reg 0 :=
    read_bulkStore (r := 0) autoInc hin (Fin.zero_le x)
  have hlow : Memory.read (s.bulkStore autoInc x).mem (s.i.toNat + 1) = s.reg 1 :=
    read_bulkStore (r := 1) autoInc hin hx
  rw [fetch_of_le (by rw [hpc]; omega), hpc, hhigh, hlow]

/-- Settles O42: the store leaves PC at I, where the fetch finds the bytes of V0 and V1, high byte first. -/
theorem storeIsSeenByNextFetch : Obligations.StoreIsSeenByNextFetch := by
  intro x s hx hi hin
  exact ⟨_, _, exec_storeRegs_of_le hin, fetch_bulkStore _ hx hi hin, wordOfBytes_toNat _ _⟩

end Sys2Proof.Machine
end

section
/-! PROOFS. Decoder and encoder are inverse to each other (spec/30_encoding.md R101, R104, R105, R113): what the fields of
an encoded word select, and what word the selected instruction has. -/

namespace Sys2Proof

/-- A format `A` word decodes to what its class and NNN select, whatever the other fields hold. -/
theorem decodeWord_encodeA {op : Nibble} {nnn : Addr12} {i : Instr}
    (h : ∀ x y n nn, selectInstr { op := op, x := x, y := y, n := n, nn := nn, nnn := nnn } = some i) :
    decodeWord (encodeA op nnn) = .ok i := by
  obtain ⟨x, y, n, nn, hf⟩ := exists_decodeFields_encodeA op nnn
  exact decodeWord_of_select (hf ▸ h x y n nn)

/-- A format `RB` or `RS` word decodes to what its class, X and NN select. -/
theorem decodeWord_encodeRB {op : Nibble} {x : Reg} {nn : Byte} {i : Instr}
    (h : ∀ y n nnn, selectInstr { op := op, x := x, y := y, n := n, nn := nn, nnn := nnn } = some i) :
    decodeWord (encodeRB op x nn) = .ok i := by
  obtain ⟨y, n, nnn, hf⟩ := exists_decodeFields_encodeRB op x nn
  exact decodeWord_of_select (hf ▸ h y n nnn)

/-- A format `RR` or `RRN` word decodes to what its class, X, Y and N select. -/
theorem decodeWord_encodeRR {op : Nibble} {x y : Reg} {n : Nibble} {i : Instr}
    (h : ∀ nn nnn, selectInstr { op := op, x := x, y := y, n := n, nn := nn, nnn := nnn } = some i) :
    decodeWord (encodeRR op x y n) = .ok i := by
  obtain ⟨nn, nnn, hf⟩ := exists_decodeFields_encodeRR op x y n
  exact decodeWord_of_select (hf ▸ h nn nnn)

/-- Settles O1: the fields a format keeps select the instruction, one case per format of R102. -/
theorem decodeOfEncodeIsIdentity : Obligations.DecodeOfEncodeIsIdentity := by
  intro i
  cases i with
  | cls | ret => rfl
  | jp | call | ldI | jpV0 => exact decodeWord_encodeA fun _ _ _ _ => rfl
  | seByte | sneByte | ldByte | addByte | rnd => exact decodeWord_encodeRB fun _ _ _ => rfl
  | skp | sknp | ldVxDt | ldVxK | ldDtVx | ldStVx | addI | ldF | ldB | storeRegs | loadRegs =>
    exact decodeWord_encodeRB fun _ _ _ => rfl
  | seReg | sneReg | ldReg | orReg | andReg | xorReg | addReg | subReg | shrReg | subnReg | shlReg | drw =>
    exact decodeWord_encodeRR fun _ _ => rfl

/-- The word of an instruction of class 0x8 is made of X, Y and N. -/
theorem encode_of_decodeAlu {f : Fields} {i : Instr} (h : decodeAlu f = some i) : encode i = encodeRR 0x8 f.x f.y f.n := by
  unfold decodeAlu at h
  split at h
  case h_10 => cases h
  all_goals
    next hn =>
      cases h
      rw [hn]
      rfl

/-- The word of an instruction of class 0xF is made of X and NN. -/
theorem encode_of_decodeMisc {f : Fields} {i : Instr} (h : decodeMisc f = some i) : encode i = encodeRB 0xF f.x f.nn := by
  unfold decodeMisc at h
  split at h
  case h_10 => cases h
  all_goals
    next hnn =>
      cases h
      rw [hnn]
      rfl

/-- The word of a selected instruction is made of the fields of one of the three groups that cover all sixteen bits. -/
theorem encode_of_selectInstr {f : Fields} {i : Instr} (h : selectInstr f = some i) :
    encode i = encodeA f.op f.nnn ∨ encode i = encodeRB f.op f.x f.nn ∨ encode i = encodeRR f.op f.x f.y f.n := by
  unfold selectInstr at h
  split at h
  case h_1 hc =>
    split_ifs at h with h1 h2
    · cases h; rw [hc, h1]; exact .inl rfl
    · cases h; rw [hc, h2]; exact .inl rfl
  case h_6 hc | h_10 hc =>
    split_ifs at h with h1
    cases h; rw [hc, h1]; exact .inr (.inr rfl)
  case h_9 hc => rw [hc]; exact .inr (.inr (encode_of_decodeAlu h))
  case h_15 hc =>
    split_ifs at h with h1 h2
    · cases h; rw [hc, h1]; exact .inr (.inl rfl)
    · cases h; rw [hc, h2]; exact .inr (.inl rfl)
  case h_16 hc => rw [hc]; exact .inr (.inl (encode_of_decodeMisc h))
  case h_2 hc | h_3 hc | h_11 hc | h_12 hc => cases h; rw [hc]; exact .inl rfl
  case h_4 hc | h_5 hc | h_7 hc | h_8 hc | h_13 hc => cases h; rw [hc]; exact .inr (.inl rfl)
  case h_14 hc => cases h; rw [hc]; exact .inr (.inr rfl)
  case h_17 => cases h

/-- Settles O2: the selected instruction's word is made of fields that together are the whole word. -/
theorem encodeOfDecodeIsIdentity : Obligations.EncodeOfDecodeIsIdentity := by
  intro w i h
  obtain hA | hRB | hRR := encode_of_selectInstr (select_of_decodeWord h)
  · exact hA.trans (word_of_op_nnn w)
  · exact hRB.trans (word_of_op_x_nn w)
  · exact hRR.trans (word_of_op_x_y_n w)

/-- Settles O5: eight closed words, decoded by evaluation. -/
theorem writtenWordsDecode : Obligations.WrittenWordsDecode := by
  unfold Obligations.WrittenWordsDecode
  decide

end Sys2Proof
end

section
/-! PROOFS. The rows of the opcode table and the list of unimplemented encodings (spec/30_encoding.md R104, R106, R107): a
row's mask covers every bit that list reads, so a word of a row is implemented, and no two rows share a word. -/

namespace Sys2Proof

/-- Outside class 0x0 the list of R106 reads the class, N in classes 0x5, 0x8 and 0x9, and NN in classes 0xE and 0xF. -/
theorem wordImplemented_congr {w u : Word} (hop : (decodeFields w).op = (decodeFields u).op)
    (h0 : (decodeFields u).op ≠ 0)
    (hn : (decodeFields u).op ∈ [0x5, 0x8, 0x9] → (decodeFields w).n = (decodeFields u).n)
    (hnn : (decodeFields u).op ∈ [0xE, 0xF] → (decodeFields w).nn = (decodeFields u).nn) :
    wordImplemented w = wordImplemented u := by
  simp only [List.mem_cons, List.not_mem_nil, or_false, ← BitVec.toNat_inj, ne_eq, decodeFields_op_toNat,
    decodeFields_n_toNat, decodeFields_nn_toNat, BitVec.reduceToNat] at hop h0 hn hnn
  simp only [wordImplemented, hop]
  generalize u.toNat / 0x1000 = c at *
  by_cases hN : c = 0x5 ∨ c = 0x8 ∨ c = 0x9
  · rw [hn hN]
    obtain rfl | rfl | rfl := hN <;> rfl
  by_cases hNN : c = 0xE ∨ c = 0xF
  · rw [hnn hNN]
    obtain rfl | rfl := hNN <;> rfl
  · simp only [not_or] at hN hNN
    simp only [beq_false_of_ne, ne_eq, h0, hN, hNN, not_false_eq_true, Bool.false_and, Bool.not_false]

/-- The fields of a word under a mask. -/
theorem decodeFields_and (w m : Word) :
    (decodeFields (w &&& m)).op = (decodeFields w).op &&& (decodeFields m).op ∧
    (decodeFields (w &&& m)).n = (decodeFields w).n &&& (decodeFields m).n ∧
    (decodeFields (w &&& m)).nn = (decodeFields w).nn &&& (decodeFields m).nn :=
  ⟨BitVec.extractLsb'_and, BitVec.extractLsb'_and, BitVec.extractLsb'_and⟩

/-- A word is of a row iff the row's match is what its mask leaves of the word (R104). -/
theorem matchesRow_iff {w : Word} {r : Word × Word} : matchesRow w r = true ↔ w &&& r.2 = r.1 := beq_iff_eq

/-- Each row's match is implemented, and its mask covers all that `wordImplemented` reads of its words. -/
theorem opcodeRows_mask_covers : ∀ r ∈ opcodeRows,
    wordImplemented r.1 = true ∧ (decodeFields r.2).op = 0xF ∧ ((decodeFields r.1).op = 0 → r.2 = 0xFFFF) ∧
    ((decodeFields r.1).op ∈ [0x5, 0x8, 0x9] → (decodeFields r.2).n = 0xF) ∧
    ((decodeFields r.1).op ∈ [0xE, 0xF] → (decodeFields r.2).nn = 0xFF) :=
  List.all_iff_forall_prop.1 (by decide)

/-- A word of a row of the opcode table is none of the unimplemented encodings (R104, R106). -/
theorem wordImplemented_of_matchesRow {w : Word} {r : Word × Word} (hr : r ∈ opcodeRows) (h : matchesRow w r = true) :
    wordImplemented w = true := by
  obtain ⟨himpl, hop, hzero, hn, hnn⟩ := opcodeRows_mask_covers r hr
  obtain ⟨hopAnd, hnAnd, hnnAnd⟩ := decodeFields_and w r.2
  rw [matchesRow_iff] at h
  rw [h] at hopAnd hnAnd hnnAnd
  by_cases h0 : (decodeFields r.1).op = 0
  · rw [hzero h0] at h
    rwa [(BitVec.and_allOnes (x := w)).symm.trans h]
  · rw [wordImplemented_congr _ h0 _ _, himpl]
    · rw [hopAnd, hop]; exact BitVec.and_allOnes.symm
    · intro hc; rw [hnAnd, hn hc]; exact BitVec.and_allOnes.symm
    · intro hc; rw [hnnAnd, hnn hc]; exact BitVec.and_allOnes.symm

/-- An instruction's word is of the instruction's row. -/
theorem matchesRow_encode (i : Instr) : matchesRow (encode i) (opcodeRows.getD i.rowIndex (0, 0)) = true := by
  cases i with
  | cls => exact Laws.RowOfEncoding.cls
  | ret => exact Laws.RowOfEncoding.ret
  | jp nnn => exact Laws.RowOfEncoding.jp nnn
  | call nnn => exact Laws.RowOfEncoding.call nnn
  | seByte x nn => exact Laws.RowOfEncoding.seByte x nn
  | sneByte x nn => exact Laws.RowOfEncoding.sneByte x nn
  | seReg x y => exact Laws.RowOfEncoding.seReg x y
  | ldByte x nn => exact Laws.RowOfEncoding.ldByte x nn
  | addByte x nn => exact Laws.RowOfEncoding.addByte x nn
  | ldReg x y => exact Laws.RowOfEncoding.ldReg x y
  | orReg x y => exact Laws.RowOfEncoding.orReg x y
  | andReg x y => exact Laws.RowOfEncoding.andReg x y
  | xorReg x y => exact Laws.RowOfEncoding.xorReg x y
  | addReg x y => exact Laws.RowOfEncoding.addReg x y
  | subReg x y => exact Laws.RowOfEncoding.subReg x y
  | shrReg x y => exact Laws.RowOfEncoding.shrReg x y
  | subnReg x y => exact Laws.RowOfEncoding.subnReg x y
  | shlReg x y => exact Laws.RowOfEncoding.shlReg x y
  | sneReg x y => exact Laws.RowOfEncoding.sneReg x y
  | ldI nnn => exact Laws.RowOfEncoding.ldI nnn
  | jpV0 nnn => exact Laws.RowOfEncoding.jpV0 nnn
  | rnd x nn => exact Laws.RowOfEncoding.rnd x nn
  | drw x y n => exact Laws.RowOfEncoding.drw x y n
  | skp x => exact Laws.RowOfEncoding.skp x
  | sknp x => exact Laws.RowOfEncoding.sknp x
  | ldVxDt x => exact Laws.RowOfEncoding.ldVxDt x
  | ldVxK x => exact Laws.RowOfEncoding.ldVxK x
  | ldDtVx x => exact Laws.RowOfEncoding.ldDtVx x
  | ldStVx x => exact Laws.RowOfEncoding.ldStVx x
  | addI x => exact Laws.RowOfEncoding.addI x
  | ldF x => exact Laws.RowOfEncoding.ldF x
  | ldB x => exact Laws.RowOfEncoding.ldB x
  | storeRegs x => exact Laws.RowOfEncoding.storeRegs x
  | loadRegs x => exact Laws.RowOfEncoding.loadRegs x

/-- Every instruction has a row. -/
theorem rowIndex_lt (i : Instr) : i.rowIndex < opcodeRows.length := by
  cases i <;> simp [Instr.rowIndex, opcodeRows]

/-- A row looked up inside the table is one of its rows. -/
theorem getD_mem_opcodeRows {k : Nat} (hk : k < opcodeRows.length) : opcodeRows.getD k (0, 0) ∈ opcodeRows := by
  rw [List.getD_eq_getElem _ _ hk]
  exact List.getElem_mem hk

/-- Two rows differ in a bit that both masks cover (R107). -/
theorem opcodeRows_pairwise : opcodeRows.Pairwise fun r q => r.1 &&& q.2 ≠ q.1 &&& r.2 := by decide

/-- A word is of one row at most: under both masks it would be both matches (R107). -/
theorem matchesRow_unique {w : Word} {j k : Nat} (hj : j < opcodeRows.length) (hk : k < opcodeRows.length)
    (hwj : matchesRow w (opcodeRows.getD j (0, 0)) = true) (hwk : matchesRow w (opcodeRows.getD k (0, 0)) = true) :
    j = k := by
  rw [matchesRow_iff, List.getD_eq_getElem _ _ hj] at hwj
  rw [matchesRow_iff, List.getD_eq_getElem _ _ hk] at hwk
  have hboth : opcodeRows[j].1 &&& opcodeRows[k].2 = opcodeRows[k].1 &&& opcodeRows[j].2 := by
    rw [← hwj, ← hwk, BitVec.and_assoc, BitVec.and_assoc, BitVec.and_comm opcodeRows[j].2]
  have hdiffer := List.pairwise_iff_getElem.1 opcodeRows_pairwise
  obtain hlt | heq | hgt := Nat.lt_trichotomy j k
  · exact absurd hboth (hdiffer j k hj hk hlt)
  · exact heq
  · exact absurd hboth.symm (hdiffer k j hk hj hgt)

/-- The words that decode are those outside the list of R106. -/
theorem exists_decodeWord_iff {w : Word} : (∃ i, decodeWord w = .ok i) ↔ wordImplemented w = true := by
  constructor
  · rintro ⟨i, hi⟩
    rw [← encodeOfDecodeIsIdentity w i hi]
    exact wordImplemented_of_matchesRow (getD_mem_opcodeRows (rowIndex_lt i)) (matchesRow_encode i)
  · intro himpl
    obtain ⟨i, hi⟩ := Option.ne_none_iff_exists'.1 fun hnone =>
      Bool.false_ne_true ((wordImplemented_of_select_none hnone).symm.trans himpl)
    exact ⟨i, decodeWord_of_select hi⟩

/-- A word that does not decode is rejected by name. -/
theorem decodeWord_error {w : Word} {e : DecodeError} (h : decodeWord w = .error e) : e = .unimplemented w := by
  unfold decodeWord at h
  split at h <;> cases h
  rfl

/-- Settles O3: what decodes is its own instruction's word, which is on a row of the opcode table, and no row is on the
list; what does not decode is on it. -/
theorem decoderRejectsExactlyUnimplementedWords : Obligations.DecoderRejectsExactlyUnimplementedWords := by
  intro w
  refine ⟨exists_decodeWord_iff.2, fun hlist => ?_⟩
  cases hd : decodeWord w with
  | ok i => exact absurd (exists_decodeWord_iff.1 ⟨i, hd⟩) (hlist ▸ Bool.false_ne_true)
  | error e => rw [decodeWord_error hd]

/-- Settles O4: a decoded word is of its instruction's row, which is its only one; any row's word decodes. -/
theorem eachWordIsOfAtMostOneRow : Obligations.EachWordIsOfAtMostOneRow := by
  intro w k hk
  cases hd : decodeWord w with
  | ok i =>
    have hown : matchesRow w (opcodeRows.getD i.rowIndex (0, 0)) = true := by
      rw [← encodeOfDecodeIsIdentity w i hd]
      exact matchesRow_encode i
    exact ⟨fun hrow => matchesRow_unique hk (rowIndex_lt i) hrow hown, fun heq => heq ▸ hown⟩
  | error e =>
    refine Bool.eq_false_iff.2 fun hrow => ?_
    obtain ⟨i, hi⟩ := exists_decodeWord_iff.2 (wordImplemented_of_matchesRow (getD_mem_opcodeRows hk) hrow)
    cases hi.symm.trans hd

end Sys2Proof
end

section
/-! PROOFS. The fault of a fetched word that is one of the unimplemented encodings (spec/40_cycle.md R135, decision D4). -/

namespace Sys2Proof.Machine

/-- A fetched word that does not decode takes `UnimplementedInstruction` (40_cycle.md R135). -/
theorem fetchExecute_of_error {s : State} {w : Word} {e : DecodeError} (hfetch : s.fetch = some w)
    (hdecode : decodeWord w = .error e) :
    fetchExecute s = .next (faulted s .unimplementedInstruction (some w) none) := by
  simp only [fetchExecute, hfetch, hdecode, raise_eq_faulted]

/-- Settles O9: the poll keeps PC and memory, so the word fetched after it is the word at PC, and the decoder rejects it. -/
theorem unimplementedWordFaults : Obligations.UnimplementedWordFaults := by
  intro s w hrun hturn hquit hfetch hlist
  have hpolled : s.takeTurn.polled.fetch = some w := hfetch
  rw [step_of_core hrun hturn, hquit, if_neg Bool.false_ne_true]
  exact fetchExecute_of_error hpolled ((decoderRejectsExactlyUnimplementedWords w).2 hlist)

end Sys2Proof.Machine
end

section
/-! PROOFS. One iteration of the core by what its fetch finds (spec/40_cycle.md R130 to R135): a quit, no word, or a decoded
instruction. -/

namespace Sys2Proof.Machine

/-! The fetch and the decoding of what it reads. -/

/-- The fetch at a PC whose second byte lies outside memory (40_cycle.md R132). -/
theorem fetch_of_gt {s : State} (h : s.pc.toNat + 1 > 0xFFF) : s.fetch = none := by
  rw [fetch_eq, if_pos h]

/-- Two bytes decode, with nothing left over, to what their word decodes to (20_memory.md R71, 30_encoding.md R100). -/
theorem decodeBytes_pair_iff {hi lo : Byte} {i : Instr} :
    decodeBytes [hi, lo] = .ok (i, []) ↔ decodeWord (wordOfBytes hi lo) = .ok i := by
  cases hd : decodeWord (wordOfBytes hi lo) with
  | ok j => simp [decodeBytes, hd]
  | error e => simp [decodeBytes, hd]

/-- Settles O6: the fetch reads its two bytes into one word exactly where the second one lies in memory. -/
theorem fetchIsBigEndianInsideMemory : Obligations.FetchIsBigEndianInsideMemory := by
  intro s
  exact ⟨fun hin => ⟨_, fetch_of_le hin, wordOfBytes_toNat _ _⟩, fetch_of_gt⟩

/-! The steps of a running core, by its poll and its fetch. -/

/-- No word to fetch takes `PcOutOfBounds` (40_cycle.md R132). -/
theorem fetchExecute_of_fetch_none {s : State} (hfetch : s.fetch = none) :
    fetchExecute s = .next (faulted s .pcOutOfBounds none none) := by
  simp only [fetchExecute, hfetch, raise_eq_faulted]

/-- A fetched word that decodes is executed (40_cycle.md R135). -/
theorem fetchExecute_of_ok {s : State} {w : Word} {i : Instr} (hfetch : s.fetch = some w)
    (hdecode : decodeWord w = .ok i) : fetchExecute s = exec i s := by
  simp only [fetchExecute, hfetch, hdecode]

section
variable {s : State} (hrun : s.run = .running) (hturn : s.turn = .core)
include hrun hturn

/-- A poll that brings a quit: the core halts on it and fetches nothing (40_cycle.md R131). -/
theorem step_of_quit (hquit : s.nextPoll.quit = true) : step s = .next s.takeTurn.polled.quitCore := by
  rw [step_of_core hrun hturn, if_pos hquit]

/-- A poll that brings no quit: fetch, decode and execute after it (40_cycle.md R130). -/
theorem step_of_no_quit (hquit : s.nextPoll.quit = false) : step s = fetchExecute s.takeTurn.polled := by
  rw [step_of_core hrun hturn, hquit, if_neg Bool.false_ne_true]

end

/-- Settles O7: the poll keeps PC and memory, so the word fetched after it is that of the bytes at PC. -/
theorem stepRunsDecodedInstruction : Obligations.StepRunsDecodedInstruction := by
  intro s i hrun hturn hquit hin hdecode
  have hfetch : s.takeTurn.polled.fetch = _ := fetch_of_le hin
  rw [step_of_no_quit hrun hturn hquit]
  exact ⟨fetchExecute_of_ok hfetch (decodeBytes_pair_iff.1 hdecode), rfl, rfl⟩

/-- Settles O8: the poll keeps PC, so after it too there is no word to fetch. -/
theorem fetchOutsideMemoryFaults : Obligations.FetchOutsideMemoryFaults := by
  intro s hrun hturn hquit hout
  have hfetch : s.takeTurn.polled.fetch = none := fetch_of_gt hout
  rw [step_of_no_quit hrun hturn hquit, fetchExecute_of_fetch_none hfetch]

/-- Settles O10: the step is the poll and the halt; neither the turn nor the halt changes what the poll does to the keypad. -/
theorem quitHaltsBeforeFetch : Obligations.QuitHaltsBeforeFetch := by
  intro s hrun hturn hquit
  exact ⟨_, step_of_quit hrun hturn hquit, rfl, rfl, rfl⟩

end Sys2Proof.Machine
end

section
/-! PROOFS. Faults are precise (spec/40_cycle.md R136, 60_exceptions.md R324; decision D5): what leaves a running core halted
by a fault is the taking of that fault, and nothing else. -/

namespace Sys2Proof.Machine

/-- An instruction that leaves a running core halted by a fault has taken a fault of its own and done nothing else. -/
theorem exec_haltedFault {s t : State} {i : Instr} (hrun : s.run = .running) (h : exec i s = .next t)
    (hhalt : t.run = .haltedFault) : ∃ c w info, t = faulted s c w info := by
  obtain ⟨c, info, -, rfl⟩ | ⟨-, heff, -⟩ := exec_cases h
  · exact ⟨c, _, info, rfl⟩
  · obtain ⟨-, -, hsame⟩ := heff.normal
    rw [hsame, hrun] at hhalt
    cases hhalt

/-- Fetch, decode and execute that leaves a running core halted by a fault has taken it: no word, an unimplemented one, or
the instruction's own (60_exceptions.md R325). -/
theorem fetchExecute_haltedFault {s t : State} (hrun : s.run = .running) (h : fetchExecute s = .next t)
    (hhalt : t.run = .haltedFault) : ∃ c w info, t = faulted s c w info := by
  obtain ⟨-, rfl⟩ | ⟨w, -, -, rfl⟩ | ⟨w, i, -, -, hexec⟩ := fetchExecute_cases h
  · exact ⟨_, _, _, raise_eq_faulted s _ _ _⟩
  · exact ⟨_, _, _, raise_eq_faulted s _ _ _⟩
  · exact exec_haltedFault hrun hexec hhalt

/-- Settles O13: a tick leaves the core running and a quit halts it otherwise, so the step took a fault after the poll,
which keeps PC. -/
theorem faultsArePrecise : Obligations.FaultsArePrecise := by
  intro s t hrun h hhalt
  obtain ⟨-, rfl⟩ | ⟨-, -, -, rfl⟩ | ⟨-, -, -, hexec⟩ := step_cases h
  · rw [State.tick_run, State.takeTurn_run, hrun] at hhalt
    cases hhalt
  · cases hhalt
  · obtain ⟨c, w, info, rfl⟩ := fetchExecute_haltedFault (s := s.takeTurn.polled) hrun hexec hhalt
    exact ⟨_, rfl, rfl⟩

end Sys2Proof.Machine
end

section
/-! PROOFS. Turns of the timer engine in the machine's own run (spec/60_exceptions.md R345, R346; decision D35). -/

namespace Sys2Proof.Machine

/-- A listed turn of the timer engine: one tick, with the turns after it left. -/
theorem step_timer_cons (s : State) (l : List Agent) :
    step { s with schedule := .timer :: l } = .next { s.tick with schedule := l } := rfl

/-- A run whose first turn is the timer engine's is the rest of the run from the ticked state. -/
theorem run_timer_cons (n : Nat) (s : State) (l : List Agent) :
    Host.Core.run Sys2Proof.core (n + 1) { s with schedule := .timer :: l } =
      Host.Core.run Sys2Proof.core n { s.tick with schedule := l } := by
  have hstep : Sys2Proof.core.step { s with schedule := .timer :: l } = .next { s.tick with schedule := l } :=
    step_timer_cons s l
  simp only [Host.Core.run, hstep]

/-- Settles O57, by induction on the number of turns: the first tick leaves a state with the same turns to come. -/
theorem ticksFallAnywhereBetweenIterations : Obligations.TicksFallAnywhereBetweenIterations := by
  intro n
  induction n with
  | zero => intro s; rfl
  | succ n ih =>
    intro s
    rw [List.replicate_succ, List.cons_append, run_timer_cons, Function.iterate_succ_apply]
    exact ih s.tick

end Sys2Proof.Machine
end

section
/-! PROOFS. Control transfer (spec/41_control_flow.md R160 to R168): each statement reads off what the instruction completes
with, its next state from the rule of its meaning and its frame from the footprint. -/

namespace Sys2Proof.Machine

/-! Jumps. -/

/-- A change of PC alone is a normal execution that writes nothing else. -/
theorem normal_setPc (s : State) (a : Word) : Normal {} s (s.setPc a) := ((Effect.refl _ s).setPc a).normal

/-- X = NNN[11:8], as a number (41_control_flow.md R168). -/
theorem topNibble_val (nnn : Addr12) : (topNibble nnn).val = nnn.toNat / 256 := by
  have hlt := nnn.isLt
  calc (nnn.extractLsb' 8 4).toNat
    _ = nnn.toNat / 2 ^ 8 % 2 ^ 4 := by rw [BitVec.extractLsb'_toNat, Nat.shiftRight_eq_div_pow]
    _ = nnn.toNat / 256 := by omega

/-- Settles O16: the target is zero-extended, so PC is the address; the second byte of a word at 0xFFF is outside memory. -/
theorem jumpSetsPc : Obligations.JumpSetsPc := by
  intro nnn s
  refine ⟨_, rfl, normal_setPc s (addrWord nnn), addrWord_toNat nnn, fun htop => ?_⟩
  have hpc : (s.setPc (addrWord nnn)).pc.toNat = 0xFFF := by rw [State.setPc_pc, addrWord_toNat, htop]; rfl
  exact fetch_of_gt (by omega)

/-- Settles O17: the sum of an address and a byte fits in PC; in mode VX the register is the one whose number is the
address's top nibble. -/
theorem jumpWithOffsetAddsRegister : Obligations.JumpWithOffsetAddsRegister := by
  intro nnn s
  refine ⟨⟨_, rfl, normal_setPc s _, jumpOffsetTarget_toNat s .v0 nnn⟩, fun x hx => ?_⟩
  have htop : topNibble nnn = x := Fin.ext ((topNibble_val nnn).trans hx)
  rw [jumpOffsetTarget_toNat, htop]

/-! Calls and returns. -/

/-- A change of PC and the stack is a normal execution of an instruction that may push or pop. -/
theorem normal_setStack_setPc (s : State) (l : List Word) (a : Word) :
    Normal { stack := true } s ((s.setStack l).setPc a) :=
  (((Effect.refl _ s).setStack l rfl).setPc a).normal

/-- `RET` where the stack has a last entry (41_control_flow.md R161). -/
theorem exec_ret_of_append {s : State} {rest : List Word} {a : Word} (h : s.stack = rest ++ [a]) :
    exec .ret s = .next ((s.setStack rest).setPc a) := by
  rw [exec_ret_of_ne_nil (by simp [h]), h, List.dropLast_concat, List.getLastD_concat]

/-- Settles O18: a stack that is not full takes the address after the call, and the target is zero-extended. -/
theorem callPushesReturnAddress : Obligations.CallPushesReturnAddress := by
  intro nnn s hlt
  exact ⟨_, exec_call_of_lt hlt, normal_setStack_setPc s _ _, rfl, addrWord_toNat nnn⟩

/-- Settles O19: the stack is split at its last entry, which goes to PC. -/
theorem returnPopsIntoPc : Obligations.ReturnPopsIntoPc := by
  intro rest a s hstack
  exact ⟨_, exec_ret_of_append hstack, normal_setStack_setPc s rest a, rfl, rfl⟩

/-- Settles O20: the stack after the call is the one before it with the return address last, so a return from any state
with that stack takes this address off. -/
theorem returnUndoesCall : Obligations.ReturnUndoesCall := by
  intro nnn s t u hlt hcall hstack
  rw [exec_call_of_lt hlt] at hcall
  cases hcall
  exact ⟨_, exec_ret_of_append hstack, rfl, rfl⟩

/-! Skips. -/

/-- An instruction whose next state is a skip on `P` leaves PC past the next instruction where `P` holds, past its own
where it does not, and changes nothing else (41_control_flow.md R160). -/
theorem exec_skip {i : Instr} {s : State} {cond : Bool} {P : Prop} [Decidable P]
    (hexec : exec i s = .next (s.skipIf cond)) (hcond : cond = true ↔ P) :
    ∃ t, exec i s = .next t ∧ Normal {} s t ∧ t.pc = if P then s.pc + 4 else s.pc + 2 :=
  ⟨_, hexec, ((Effect.refl _ s).skipIf cond).normal, skipIf_pc s cond P hcond⟩

/-- Settles O21: both are skips, on the register's comparison with the byte. -/
theorem byteSkipsCompareRegister : Obligations.ByteSkipsCompareRegister := by
  intro x nn s
  exact ⟨exec_skip rfl beq_iff_eq, exec_skip rfl bne_iff_ne⟩

/-- Settles O22: both are skips, on the comparison of the two registers. -/
theorem registerSkipsCompareRegisters : Obligations.RegisterSkipsCompareRegisters := by
  intro x y s
  exact ⟨exec_skip rfl beq_iff_eq, exec_skip rfl bne_iff_ne⟩

end Sys2Proof.Machine
end

section
/-! PROOFS. Register loads and the ALU (spec/42_alu.md R190 to R202): every next state is a plain write of V[X] or a write
of V[X] followed by the flag in VF, so frame and PC are proved once for each of the two. -/

namespace Sys2Proof.Machine

/-! Writes of a result alone. -/

/-- A result write is a normal execution that writes V[X] and nothing else beside PC. -/
theorem normal_writeResult (s : State) (x : Reg) (b : Byte) : Normal { regs := [x] } s (s.writeResult x b) :=
  ((Effect.refl _ s).writeResult b (.head _)).normal

theorem writeResult_reg_self (s : State) (x : Reg) (b : Byte) : (s.writeResult x b).reg x = b := by
  rw [State.writeResult, State.setReg_reg, if_pos rfl]

/-- Settles O23: each of the three is a result write, of the byte, of the narrowed sum and of V[Y]. -/
theorem loadsAndAddImmediate : Obligations.LoadsAndAddImmediate := by
  intro x y nn s
  refine ⟨⟨_, rfl, normal_writeResult s x _, rfl, writeResult_reg_self s x nn⟩,
    ⟨_, rfl, normal_writeResult s x _, rfl, ?_⟩,
    ⟨_, rfl, normal_writeResult s x _, rfl, writeResult_reg_self s x (s.reg y)⟩⟩
  rw [writeResult_reg_self, sumByte_toNat]

/-- Settles O24: each of the three is a result write, and its bits are those of the operation on bit vectors. -/
theorem logicWorksBitByBit : Obligations.LogicWorksBitByBit := by
  intro x y s
  refine ⟨⟨_, rfl, normal_writeResult s x _, rfl, fun k _ => ?_⟩, ⟨_, rfl, normal_writeResult s x _, rfl, fun k _ => ?_⟩,
    ⟨_, rfl, normal_writeResult s x _, rfl, fun k _ => ?_⟩⟩
  · rw [writeResult_reg_self, BitVec.getLsbD_or]
  · rw [writeResult_reg_self, BitVec.getLsbD_and]
  · rw [writeResult_reg_self, BitVec.getLsbD_xor]

/-! Writes of a result and a flag. -/

/-- A flagged write is a normal execution that writes V[X] and VF and nothing else beside PC. -/
theorem normal_writeFlagged (s : State) (x : Reg) (b : Byte) (flag : Bool) :
    Normal { regs := [x, vF] } s (s.writeFlagged x b flag) :=
  ((Effect.refl _ s).writeFlagged b flag (.head _) (.tail _ (.head _))).normal

/-- The flag is written last, so VF holds it whatever X is (42_alu.md R190). -/
theorem writeFlagged_reg_vF (s : State) (x : Reg) (b : Byte) (flag : Bool) :
    (s.writeFlagged x b flag).reg vF = flagByte flag := by
  rw [writeFlagged_reg, if_pos rfl]

theorem writeFlagged_reg_result {x : Reg} (hx : x ≠ vF) (s : State) (b : Byte) (flag : Bool) :
    (s.writeFlagged x b flag).reg x = b := by
  rw [writeFlagged_reg, if_neg hx, if_pos rfl]

/-! The flags as numbers. -/

theorem flagByte_decide_toNat (P : Prop) [Decidable P] : (flagByte (decide P)).toNat = if P then 1 else 0 := by
  simp only [flagByte_toNat, decide_eq_true_eq]

theorem flagByte_carry_toNat (a b : Byte) : (flagByte (carry a b)).toNat = if a.toNat + b.toNat > 255 then 1 else 0 :=
  flagByte_decide_toNat _

theorem flagByte_noBorrow_toNat (a b : Byte) : (flagByte (noBorrow a b)).toNat = if a.toNat ≥ b.toNat then 1 else 0 :=
  flagByte_decide_toNat _

theorem flagByte_outOfRight_toNat (b : Byte) : (flagByte (outOfRight b)).toNat = b.toNat % 2 := by
  rw [outOfRight_eq, flagByte_decide_toNat]
  split <;> omega

theorem flagByte_outOfLeft_toNat (b : Byte) : (flagByte (outOfLeft b)).toNat = b.toNat / 128 := by
  have hlt := b.isLt
  rw [outOfLeft_eq, flagByte_decide_toNat]
  split <;> omega

/-- Settles O25: a flagged write of the narrowed sum, with the carry as its flag. -/
theorem addSetsCarry : Obligations.AddSetsCarry := by
  intro x y s
  refine ⟨_, rfl, normal_writeFlagged s x _ _, rfl, fun hx => ?_, ?_⟩
  · rw [writeFlagged_reg_result hx, sumByte_toNat]
  · rw [writeFlagged_reg_vF, flagByte_carry_toNat]

/-- A subtraction `a - b` into V[X], whichever registers `a` and `b` come from (42_alu.md R198, R200). -/
theorem exec_subtraction {i : Instr} {s : State} {x : Reg} {a b : Byte}
    (hexec : exec i s = .next (s.writeFlagged x (differenceByte a b) (noBorrow a b))) :
    ∃ t, exec i s = .next t ∧ Normal { regs := [x, vF] } s t ∧ t.pc = s.pc + 2 ∧
      (x ≠ vF → ((t.reg x).toNat : Int) = ((a.toNat : Int) - b.toNat) % 256) ∧
      (t.reg vF).toNat = if a.toNat ≥ b.toNat then 1 else 0 := by
  refine ⟨_, hexec, normal_writeFlagged s x _ _, rfl, fun hx => ?_, ?_⟩
  · rw [writeFlagged_reg_result hx, differenceByte_toNat]
  · rw [writeFlagged_reg_vF, flagByte_noBorrow_toNat]

/-- Settles O26: both are subtractions, with the operands in the two orders. -/
theorem subtractionsSetNoBorrow : Obligations.SubtractionsSetNoBorrow := by
  intro x y s
  exact ⟨exec_subtraction rfl, exec_subtraction rfl⟩

/-- The shift source is one register, picked by the quirk (42_alu.md R199). -/
theorem shiftSource_eq_reg (s : State) (usesVy : Bool) (x y : Reg) :
    s.shiftSource usesVy x y = s.reg (if usesVy then y else x) :=
  (apply_ite s.reg _ _ _).symm

/-- Settles O27: both are flagged writes whose source is the register the quirk picks, for either value of it. -/
theorem shiftsMoveOutOneBit : Obligations.ShiftsMoveOutOneBit := by
  intro x y s
  simp only [← shiftSource_eq_reg]
  refine ⟨⟨_, rfl, normal_writeFlagged s x _ _, rfl, fun hx => ?_, ?_⟩,
    ⟨_, rfl, normal_writeFlagged s x _ _, rfl, fun hx => ?_, ?_⟩⟩
  · rw [State.shiftRight, writeFlagged_reg_result hx, shiftedRight_toNat]
  · rw [State.shiftRight, writeFlagged_reg_vF, flagByte_outOfRight_toNat]
  · rw [State.shiftLeft, writeFlagged_reg_result hx, shiftedLeft_toNat]
  · rw [State.shiftLeft, writeFlagged_reg_vF, flagByte_outOfLeft_toNat]

/-! The random byte. -/

/-- Storing a drawn byte is a normal execution that writes V[X] and takes a free value. -/
theorem normal_storeRandom (s : State) (draw : Byte) (x : Reg) (nn : Byte) :
    Normal { regs := [x], draws := true } s (s.storeRandom draw x nn) :=
  (((Effect.refl _ s).writeResult _ (.head _)).nextDraw rfl).normal

theorem storeRandom_reg_self (s : State) (draw : Byte) (x : Reg) (nn : Byte) :
    (s.storeRandom draw x nn).reg x = draw &&& nn := by
  rw [State.storeRandom, State.nextDraw_reg, writeResult_reg_self]

/-- Settles O28: what is stored is the drawn byte under the mask, whatever `Config.freeByte` gives. -/
theorem randomByteIsMasked : Obligations.RandomByteIsMasked := by
  intro x nn s
  refine ⟨_, rfl, normal_storeRandom s _ x nn, rfl, fun k => ?_, fun hzero => ?_⟩
  · rw [storeRandom_reg_self, BitVec.getLsbD_and]
  · rw [storeRandom_reg_self, hzero]
    exact BitVec.and_zero

/-- Settles O29: a byte with no bit outside the mask is stored by drawing that byte itself. -/
theorem randomByteAdmitsEveryValue : Obligations.RandomByteAdmitsEveryValue := by
  intro x nn b s hsub
  refine ⟨b, ?_⟩
  rw [storeRandom_reg_self]
  refine BitVec.eq_of_getLsbD_eq fun k _ => ?_
  rw [BitVec.getLsbD_and, Bool.and_eq_left_iff_imp.2 (hsub k)]

end Sys2Proof.Machine
end

section
/-! PROOFS. The display (spec/43_display.md R230 to R241): what a drawn sprite leaves at each pixel and in VF, told with the
sprite bits of Sys2Proof/Safety.lean, and from it the statements on clearing, drawing and presenting. -/

namespace Sys2Proof.Machine

/-! The sprite's bits and the blitter. -/

/-- A sprite bit is a bit of the sprite byte of its row. -/
theorem spriteBit_eq_true_iff (s : State) (n : Nibble) (x0 y0 px py : Nat) :
    spriteBit s n x0 y0 px py = true ↔ x0 ≤ px ∧ px < x0 + 8 ∧ y0 ≤ py ∧ py < y0 + n.toNat ∧
      ((s.spriteBytes n).getD (py - y0) 0).getLsbD (7 - (px - x0)) = true := by
  simp only [spriteBit, State.spriteBytes, Bool.and_eq_true, decide_eq_true_eq, and_assoc]
  refine and_congr_right fun _ => and_congr_right fun _ => and_congr_right fun _ => and_congr_right fun hlt => ?_
  rw [Memory.readBytes_getD _ _ _ _ (by omega)]

/-- The sprite bits depend on the state by I and memory alone. -/
theorem spriteBit_congr {s u : State} (hi : u.i = s.i) (hmem : u.mem = s.mem) : spriteBit u = spriteBit s := by
  unfold spriteBit
  rw [hi, hmem]

/-- A pixel that is set lies inside the bitmap. -/
theorem Bitmap.pixel_inside {fb : Bitmap} {x y : Nat} (h : Bitmap.pixel fb x y = true) :
    x < Config.screenW ∧ y < Config.screenH := by
  by_contra hout
  rw [Bitmap.pixel_outside fb hout] at h
  cases h

theorem flagByte_eq_one_iff (b : Bool) : flagByte b = 1 ↔ b = true := by cases b <;> decide

theorem flagByte_eq_zero_or_one (b : Bool) : flagByte b = 0 ∨ flagByte b = 1 := by cases b <;> decide

section
variable (s : State) (x y : Reg) (n : Nibble)

/-- Each pixel is XORed with the sprite bit that falls on it; no bit wraps to the opposite edge (R232, R233, R235, R236). -/
theorem drawSprite_pixel {px py : Nat} (hpx : px < Config.screenW) (hpy : py < Config.screenH) :
    Bitmap.pixel (s.drawSprite x y n).fb px py =
      (Bitmap.pixel s.fb px py ^^ spriteBit s n (s.startColumn x) (s.startRow y) px py) := by
  rw [State.drawSprite, State.present_fb, drawBytes_pixel]
  congr 1
  rw [Bool.eq_iff_iff, decide_eq_true_iff, spriteBit_eq_true_iff, State.spriteBytes, Memory.readBytes_length]
  tauto

theorem drawSprite_reg_vF : (s.drawSprite x y n).reg vF =
    flagByte (drawBytes ⟨s.fb, false⟩ (s.startColumn x) (s.startRow y) (s.spriteBytes n)).hit := by
  rw [State.drawSprite, State.present_reg, State.setReg_reg, if_pos rfl]

/-- VF is 1 iff a set sprite bit met a set pixel of the bitmap before the draw (R235). -/
theorem drawSprite_reg_vF_eq_one_iff : (s.drawSprite x y n).reg vF = 1 ↔
    ∃ px py, px < Config.screenW ∧ py < Config.screenH ∧ Bitmap.pixel s.fb px py = true ∧
      spriteBit s n (s.startColumn x) (s.startRow y) px py = true := by
  have hlen : (s.spriteBytes n).length = n.toNat := Memory.readBytes_length _ _ _
  rw [drawSprite_reg_vF, flagByte_eq_one_iff, drawBytes_hit, hlen]
  constructor
  · rintro (hfalse | ⟨r, hr, k, hk, hbit, hpix⟩)
    · cases hfalse
    · obtain ⟨hpx, hpy⟩ := Bitmap.pixel_inside hpix
      refine ⟨_, _, hpx, hpy, hpix, (spriteBit_eq_true_iff ..).2 ⟨by omega, by omega, by omega, by omega, ?_⟩⟩
      rwa [Nat.add_sub_cancel_left, Nat.add_sub_cancel_left]
  · rintro ⟨px, py, -, -, hpix, hsprite⟩
    obtain ⟨hx, hx', hy, hy', hbit⟩ := (spriteBit_eq_true_iff ..).1 hsprite
    refine .inr ⟨py - s.startRow y, by omega, px - s.startColumn x, by omega, hbit, ?_⟩
    rwa [Nat.add_sub_cancel' hx, Nat.add_sub_cancel' hy]

/-- A drawn sprite is a normal execution that writes VF and the display. -/
theorem normal_drawSprite : Normal { regs := [vF], display := true } s (s.drawSprite x y n) :=
  (((Effect.refl _ s).writeResult _ (.head _)).present _ rfl).normal

end

/-- `DRW` of a height above 0 whose bytes lie in memory draws its sprite (R234, R239). -/
theorem exec_drw_of_le {s : State} {x y : Reg} {n : Nibble} (hn : n.toNat ≠ 0) (hin : s.i.toNat + n.toNat - 1 ≤ 0xFFF) :
    exec (.drw x y n) s = .next (s.drawSprite x y n) := by
  rw [exec_drw_of_ne_zero hn, accessing_of_le hin]

/-- Settles O31: the next state is the drawn sprite, whose pixels and flag are those of the blitter. -/
theorem drawXorsClippedSprite : Obligations.DrawXorsClippedSprite := by
  intro x y n s hn hin
  refine ⟨_, exec_drw_of_le hn hin, normal_drawSprite s x y n, rfl, fun px py hpx hpy => drawSprite_pixel s x y n hpx hpy,
    ?_, drawSprite_reg_vF_eq_one_iff s x y n, rfl⟩
  rw [drawSprite_reg_vF]
  exact flagByte_eq_zero_or_one _

/-! The same sprite drawn a second time. -/

/-- Settles O32: both draws XOR with the same bits, so the second undoes the first, and it meets a pixel set under a sprite
bit exactly where the first draw found it clear. -/
theorem drawTwiceCancels : Obligations.DrawTwiceCancels := by
  intro x y n s t u hn hin ht hfb hi hmem hx hy
  rw [exec_drw_of_le hn hin] at ht
  cases ht
  have hcol : u.startColumn x = s.startColumn x := by rw [State.startColumn, hx, State.startColumn]
  have hrow : u.startRow y = s.startRow y := by rw [State.startRow, hy, State.startRow]
  refine ⟨_, exec_drw_of_le hn (hi ▸ hin), Bitmap.ext_pixel fun px py hpx hpy => ?_,
    (drawSprite_reg_vF_eq_one_iff u x y n).trans ?_⟩
  · rw [drawSprite_pixel u x y n hpx hpy, spriteBit_congr hi hmem, hcol, hrow, hfb, drawSprite_pixel s x y n hpx hpy,
      Bool.xor_assoc, Bool.xor_self, Bool.xor_false]
  · rw [spriteBit_congr hi hmem, hcol, hrow, hfb]
    refine exists_congr fun px => exists_congr fun py => and_congr_right fun hpx => and_congr_right fun hpy =>
      and_congr_left fun hbit => ?_
    replace hbit : spriteBit s n (s.startColumn x) (s.startRow y) px py = true := hbit
    rw [drawSprite_pixel s x y n hpx hpy, hbit, Bool.xor_true, Bool.not_eq_true']

/-- The bitmap with every pixel 1. -/
def Bitmap.full : Bitmap := Vector.replicate Config.screenH (Vector.replicate Config.screenW true)

theorem Bitmap.pixel_full {px py : Nat} (hpx : px < Config.screenW) (hpy : py < Config.screenH) :
    Bitmap.pixel Bitmap.full px py = true := by
  simp [Bitmap.pixel, Bitmap.full, hpx, hpy]

/-- Refutes O33: the font's first row is drawn twice at the top left corner of a full bitmap. No pixel was clear before the
first draw, so by `drawTwiceCancels` the second leaves VF 0, although bit 7 of the row 0xF0 falls on pixel (0, 0). -/
theorem not_secondDrawAlwaysCollides : ¬ Obligations.SecondDrawAlwaysCollides := by
  intro h
  let s : State := { State.reset with i := 0x50, fb := Bitmap.full }
  have hn : (1 : Nibble).toNat ≠ 0 := by decide
  have hin : s.i.toNat + (1 : Nibble).toNat - 1 ≤ 0xFFF := by decide
  have hbit : spriteBit s 1 ((s.reg 0).toNat % 64) ((s.reg 1).toNat % 32) 0 0 = true := by decide
  have hfirst : exec (.drw 0 1 1) s = .next (s.drawSprite 0 1 1) := exec_drw_of_le hn hin
  have hx : (s.drawSprite 0 1 1).reg 0 = s.reg 0 := (normal_drawSprite s 0 1 1).1.regs 0 (by decide)
  have hy : (s.drawSprite 0 1 1).reg 1 = s.reg 1 := (normal_drawSprite s 0 1 1).1.regs 1 (by decide)
  obtain ⟨w, hsecond, -, hflag⟩ := drawTwiceCancels 0 1 1 s _ _ hn hin hfirst rfl rfl rfl hx hy
  have hone : w.reg vF = 1 := h 0 1 1 s _ _ w hn hin hfirst rfl rfl rfl hx hy hsecond ⟨0, 0, by decide, by decide, hbit⟩
  obtain ⟨px, py, hpx, hpy, hclear, -⟩ := hflag.1 hone
  rw [Bitmap.pixel_full hpx hpy] at hclear
  cases hclear

/-! Who presents. -/

/-- Settles O30: the presented bitmap is the clear one. -/
theorem clearScreenPresentsClearBitmap : Obligations.ClearScreenPresentsClearBitmap := by
  intro s
  exact ⟨_, rfl, ((Effect.refl _ s).advance.present _ rfl).normal, rfl, Bitmap.pixel_clear, rfl⟩

/-- The instructions whose footprint holds the display (10_state.md R44). -/
theorem footprint_display_iff (s : State) (i : Instr) :
    (footprint s i).display = true ↔ i = .cls ∨ ∃ x y n, i = .drw x y n := by
  cases i <;> simp [footprint]

/-- A completed `CLS` or `DRW` presents the bitmap it leaves, once (R231). -/
theorem presented_of_display {s t : State} {i : Instr} (hi : i = .cls ∨ ∃ x y n, i = .drw x y n)
    (hown : ownFault s i = none) (h : exec i s = .next t) : t.presented = s.presented ++ [t.fb] := by
  obtain rfl | ⟨x, y, n, rfl⟩ := hi
  · cases h
    rfl
  · have hn : n.toNat ≠ 0 := fun hzero => by simp [ownFault, hzero] at hown
    have hin : s.i.toNat + n.toNat - 1 ≤ 0xFFF := by simpa [ownFault, hn] using hown
    rw [exec_drw_of_le hn hin] at h
    cases h
    rfl

/-- Settles O34: a taken fault presents nothing, and a completed instruction presents only where its footprint holds the
display. -/
theorem onlyClearAndDrawPresent : Obligations.OnlyClearAndDrawPresent := by
  intro i s t h
  obtain ⟨c, info, hown, rfl⟩ | ⟨hown, heff, -⟩ := exec_cases h
  · rw [if_neg (by simp [hown])]
    rfl
  · by_cases hi : i = .cls ∨ ∃ x y n, i = .drw x y n
    · rw [if_pos ⟨hi, hown⟩]
      exact presented_of_display hi hown h
    · rw [if_neg fun hand => hi hand.1]
      have hdisplay : (footprint s i).display = false := by rwa [← Bool.not_eq_true, footprint_display_iff]
      exact (heff.normal.1.display hdisplay).2

end Sys2Proof.Machine
end

section
/-! PROOFS. Index register and memory (spec/44_index_memory.md R260 to R268): each statement puts together the
next state of the meaning, its frame, and what it leaves in I, in the stored bytes and in the loaded registers. -/

namespace Sys2Proof.Machine

/-! The index register. -/

/-- A change of I beside the pre-increment is a normal execution that writes I and nothing else beside PC. -/
theorem normal_advance_setI (s : State) (a : Word) : Normal { index := true } s (s.advance.setI a) :=
  ((Effect.refl _ s).advance.setI a rfl).normal

/-- Settles O35: I takes the zero-extended address. -/
theorem loadIndexSetsI : Obligations.LoadIndexSetsI := by
  intro nnn s
  exact ⟨_, rfl, normal_advance_setI s (addrWord nnn), rfl, addrWord_toNat nnn⟩

/-- Settles O36: the sum and its overflow are both of the registers before the instruction, and VF is written last. -/
theorem addIndexSetsOverflow : Obligations.AddIndexSetsOverflow := by
  intro x s
  refine ⟨_, rfl, (((Effect.refl _ s).advance.setI _ rfl).setReg _ (.head _)).normal, rfl, ?_, ?_⟩
  · rw [State.setReg_i, State.setI_i, indexSum_toNat]
  · rw [State.setReg_reg, if_pos rfl]
    exact flagByte_decide_toNat _

/-- The glyphs of the sixteen nibbles all lie below 0x10000, so no glyph address wraps. -/
theorem glyphAddress_toNat (b : Byte) : (glyphAddress b).toNat = 0x50 + 5 * (b.toNat % 16) := by
  have hlt : 0x50 + 5 * (b.toNat % 16) < 2 ^ 16 := by omega
  exact (BitVec.toNat_ofNat ..).trans (Nat.mod_eq_of_lt hlt)

/-- Settles O37: I takes the glyph address of V[X]. -/
theorem fontAddressOfLowNibble : Obligations.FontAddressOfLowNibble := by
  intro x s
  exact ⟨_, rfl, normal_advance_setI s _, rfl, glyphAddress_toNat (s.reg x)⟩

/-! The frame of a completed instruction. -/

/-- A completed instruction executes normally inside its footprint. -/
theorem Completes.normal {i : Instr} {s t : State} (h : Completes i s (.next t)) : Normal (footprint s i) s t := by
  obtain ⟨_, ⟨⟩, heff, -⟩ := h
  exact heff.normal

/-- A frame that also lets I change: what the quirk of R268 does to I is then said beside the frame. -/
theorem Normal.withIndex {f : Footprint} {s t : State} (h : Normal f s t) : Normal { f with index := true } s t := by
  obtain ⟨hk, hfault, hrun⟩ := h
  exact ⟨{ hk with index := nofun }, hfault, hrun⟩

/-! The decimal digits of a byte, stored as a block. -/

/-- The byte a block inside memory leaves at each of its places. -/
theorem Memory.read_writeBytes_inside {m : Memory} {a k : Nat} {bs : List Byte} (hin : a + bs.length ≤ Config.memSize)
    (hk : k < bs.length) : Memory.read (Memory.writeBytes m a bs) (a + k) = bs.getD k 0 := by
  rw [Memory.read_writeBytes _ _ _ _ hin, if_pos ⟨Nat.le_add_right a k, Nat.add_lt_add_left hk a⟩,
    Nat.add_sub_cancel_left]

theorem bcdDigits_getD_le (b : Byte) {k : Nat} (hk : k < 3) : ((bcdDigits b).getD k 0).toNat ≤ 9 := by
  have hlt := b.isLt
  interval_cases k <;> simp only [bcdDigits, List.getD_cons_zero, List.getD_cons_succ, BitVec.toNat_ofNat] <;> omega

/-- The digits are those of the byte in base 10, most significant first. -/
theorem bcdDigits_value (b : Byte) :
    ((bcdDigits b).getD 0 0).toNat * 100 + ((bcdDigits b).getD 1 0).toNat * 10 + ((bcdDigits b).getD 2 0).toNat
      = b.toNat := by
  have hlt := b.isLt
  simp only [bcdDigits, List.getD_cons_zero, List.getD_cons_succ, BitVec.toNat_ofNat]
  omega

/-- `LD B, Vx` where its last byte lies inside memory (R265). -/
theorem exec_ldB_of_le {s : State} {x : Reg} (h : s.i.toNat + 2 ≤ 0xFFF) :
    exec (.ldB x) s = .next (s.advance.setMem (Memory.writeBytes s.mem s.i.toNat (bcdDigits (s.reg x)))) :=
  congrArg Host.Outcome.next (accessing_of_le h)

/-- Settles O38: the stored block is the three digits of V[X]. -/
theorem bcdStoresThreeDigits : Obligations.BcdStoresThreeDigits := by
  intro x s hin
  have hread : ∀ k < 3, Memory.read (Memory.writeBytes s.mem s.i.toNat (bcdDigits (s.reg x))) (s.i.toNat + k) =
      (bcdDigits (s.reg x)).getD k 0 :=
    fun k hk => Memory.read_writeBytes_inside (Nat.succ_le_succ hin) hk
  refine ⟨_, exec_ldB_of_le hin, (completes_storeBcd x s hin).normal, rfl, fun k hk => ?_, ?_⟩
  · rw [State.setMem_mem, hread k hk]
    exact bcdDigits_getD_le _ hk
  · have hfirst := hread 0 (by decide)
    rw [Nat.add_zero] at hfirst
    rw [State.setMem_mem, hfirst, hread 1 (by decide), hread 2 (by decide), bcdDigits_value]

/-! Bulk store and bulk load. -/

/-- Settles O39: the stored block is the registers in order, and I is what the quirk makes of it, for either value. -/
theorem bulkStoreWritesRegisters : Obligations.BulkStoreWritesRegisters := by
  intro x s hin
  exact ⟨_, exec_storeRegs_of_le hin, (completes_bulkStore x s hin).normal.withIndex, bulkStore_pc s _ x,
    fun _ hr => read_bulkStore _ hin hr, indexAfterBulk_toNat s _ x hin⟩

/-- The bulk load where its last byte lies inside memory (R267). -/
theorem exec_loadRegs_of_le {s : State} {x : Reg} (h : s.i.toNat + x.val ≤ 0xFFF) :
    exec (.loadRegs x) s = .next (s.bulkLoad Config.indexAutoInc x) :=
  congrArg Host.Outcome.next (accessing_of_le h)

@[simp] theorem bulkLoad_pc (s : State) (autoInc : Bool) (x : Reg) : (s.bulkLoad autoInc x).pc = s.pc + 2 := rfl

/-- The registers a bulk load leaves, for either value of the quirk. -/
@[simp] theorem bulkLoad_reg (s : State) (autoInc : Bool) (x q : Reg) :
    (s.bulkLoad autoInc x).reg q = if q ≤ x then Memory.read s.mem (s.i.toNat + q.val) else s.reg q := by
  rw [State.bulkLoad, State.setI_reg, State.loadRegsFrom_reg, State.advance_mem, State.advance_i, State.advance_reg]

/-- Settles O40: the loaded registers are the bytes from I on, and I is what the quirk makes of it, for either value. -/
theorem bulkLoadReadsRegisters : Obligations.BulkLoadReadsRegisters := by
  intro x s hin
  refine ⟨_, exec_loadRegs_of_le hin, (completes_bulkLoad x s).normal.withIndex, bulkLoad_pc s _ x, fun r hr => ?_,
    indexAfterBulk_toNat s _ x hin⟩
  rw [bulkLoad_reg, if_pos hr]

/-- Settles O41: the load reads, for each register up to VX, the byte the store left for it. -/
theorem bulkLoadUndoesBulkStore : Obligations.BulkLoadUndoesBulkStore := by
  intro x s t u hin hstore hmem hi
  rw [exec_storeRegs_of_le hin] at hstore
  cases hstore
  refine ⟨_, exec_loadRegs_of_le (hi ▸ hin), fun r hr => ?_, fun r hr => ?_⟩
  · rw [bulkLoad_reg, if_pos hr, hmem, hi, read_bulkStore _ hin hr]
  · rw [bulkLoad_reg, if_neg (Fin.not_le.2 hr)]

end Sys2Proof.Machine
end

section
/-! PROOFS. Keys and timers (spec/45_keys_timers.md R290 to R298): the key skips, what `LD Vx, K` stores for any choice, the
timer writes with the ticks after them, and that ST decides nothing. -/

namespace Sys2Proof.Machine

/-! Key skips. -/

/-- The condition a key skip tests is a comparison with the key's held flag. -/
theorem held_beq_some_iff (s : State) (k : Key) (want : Bool) :
    (s.held[k.val]? == some want) = true ↔ s.held[k.val] = want := by
  rw [Vector.getElem?_eq_getElem k.isLt, beq_iff_eq, Option.some_inj]

/-- A key skip where the value names a key (R290, R291). -/
theorem exec_keySkip {i : Instr} {s : State} {b : Byte} {k : Key} {want : Bool} (hkey : b.toNat = k.val)
    (hexec : exec i s = .next (s.keySkip i b want)) :
    ∃ t, exec i s = .next t ∧ Normal {} s t ∧ t.pc = if s.held[k.val] = want then s.pc + 4 else s.pc + 2 := by
  have hle : b.toNat ≤ 15 := by omega
  rw [keySkip_of_le hle, hkey] at hexec
  exact exec_skip hexec (held_beq_some_iff s k want)

/-- Settles O43: both are key skips on V[X], for a held flag that is set and for one that is not. -/
theorem keySkipsTestHeldFlag : Obligations.KeySkipsTestHeldFlag := by
  intro x k s hkey
  exact ⟨exec_keySkip hkey rfl, exec_keySkip hkey rfl⟩

/-! Awaiting a key. -/

theorem pressedKeys_eq_nil_iff (s : State) : s.pressedKeys = [] ↔ ∀ k : Key, s.pressed[k.val] = false := by
  simp only [List.eq_nil_iff_forall_not_mem, mem_pressedKeys, Bool.not_eq_true]

/-- With no key pressed nothing changes, whatever the choice (R294). -/
theorem awaitKey_of_nil {s : State} (h : s.pressedKeys = []) (choice : Nat) (x : Reg) : s.awaitKey choice x = s := by
  rw [State.awaitKey, h]

/-- With a key pressed, V[X] holds the code of the key the choice takes (R295). -/
theorem awaitKey_reg_toNat {s : State} {k : Key} {ks : List Key} (h : s.pressedKeys = k :: ks) (choice : Nat) (x : Reg) :
    ((s.awaitKey choice x).reg x).toNat = (chosenKey choice k ks).val := by
  have hlt := (chosenKey choice k ks).isLt
  have hreg : (s.awaitKey choice x).reg x = .ofNat 8 (chosenKey choice k ks).val := by
    rw [State.awaitKey, h]
    exact writeResult_reg_self s x _
  rw [hreg, BitVec.toNat_ofNat, Nat.mod_eq_of_lt (by omega)]

/-- Settles O44: the pressed keys are none, and the state stays; or the chosen key is one of them, and PC is past the
instruction because some flag is set. -/
theorem awaitKeyWaitsOrStoresPressedKey : Obligations.AwaitKeyWaitsOrStoresPressedKey := by
  intro x s
  constructor
  · intro hnone
    exact congrArg Host.Outcome.next (awaitKey_of_nil ((pressedKeys_eq_nil_iff s).2 hnone) _ x)
  · rintro ⟨q, hq⟩
    obtain ⟨k, ks, hkeys⟩ := List.exists_cons_of_ne_nil (List.ne_nil_of_mem ((mem_pressedKeys s q).2 hq))
    obtain ⟨t, ht, heff, hpc⟩ := completes_awaitKey x s (Config.freeChoice s.draws)
    have hpressed : s.pressed.contains true = true := by
      rw [pressed_contains_true, hkeys]
      exact List.cons_ne_nil k ks
    have hmem : chosenKey (Config.freeChoice s.draws) k ks ∈ s.pressedKeys := by
      rw [hkeys]
      exact chosenKey_mem _ k ks
    refine ⟨t, ht, heff.normal, hpc.trans (if_pos hpressed), _, (mem_pressedKeys s _).1 hmem, ?_⟩
    cases ht
    exact awaitKey_reg_toNat hkeys _ x

/-- Settles O45: every member of the list of pressed keys is taken by some choice. -/
theorem awaitKeyAdmitsEveryPressedKey : Obligations.AwaitKeyAdmitsEveryPressedKey := by
  intro x s q hq
  have hmem := (mem_pressedKeys s q).2 hq
  obtain ⟨k, ks, hkeys⟩ := List.exists_cons_of_ne_nil (List.ne_nil_of_mem hmem)
  obtain ⟨choice, hchoice⟩ := chosenKey_surjective k ks q (hkeys ▸ hmem)
  exact ⟨choice, by rw [awaitKey_reg_toNat hkeys, hchoice]⟩

/-- Settles O46: DT is outside the footprint of `LD Vx, K`. -/
theorem awaitKeyNeverWritesDelayTimer : Obligations.AwaitKeyNeverWritesDelayTimer := by
  intro x s t h
  exact (everyInstructionKeepsItsFrame (.ldVxK x) s t h).delay rfl

/-! The timers and the ticks after a write. -/

/-- Each tick takes one from each timer that is not 0 (60_exceptions.md R345, R347). -/
theorem iterate_tick_toNat (n : Nat) (s : State) :
    (State.tick^[n] s).dt.toNat = s.dt.toNat - n ∧ (State.tick^[n] s).st.toNat = s.st.toNat - n := by
  induction n generalizing s with
  | zero => exact ⟨rfl, rfl⟩
  | succ n ih =>
    obtain ⟨hdt, hst⟩ := ih s.tick
    obtain ⟨hdt1, hst1⟩ := tick_toNat s
    rw [Function.iterate_succ_apply]
    omega

/-- Settles O47: DT takes V[X], and the ticks count down from there. -/
theorem delayTimerWriteSetsDelayTimer : Obligations.DelayTimerWriteSetsDelayTimer := by
  intro x s
  exact ⟨_, rfl, ((Effect.refl _ s).advance.setDt _ rfl).normal, rfl, rfl, fun n => (iterate_tick_toNat n _).1⟩

/-- Settles O49: a result write of DT. -/
theorem timerReadLoadsDelayTimer : Obligations.TimerReadLoadsDelayTimer := by
  intro x s
  exact ⟨_, rfl, normal_writeResult s x s.dt, rfl, writeResult_reg_self s x s.dt⟩

/-! ST decides nothing: another value of ST before an instruction is the same other value after it. -/

theorem skipIf_setSt (s : State) (b : Byte) (cond : Bool) : (s.setSt b).skipIf cond = (s.skipIf cond).setSt b := by
  cases cond with
  | false => rfl
  | true => rfl

theorem accessing_setSt {s done done' : State} {b : Byte} (hdone : done' = done.setSt b) (i : Instr) (last : Nat) :
    (s.setSt b).accessing i last done' = (s.accessing i last done).setSt b := by
  rw [accessing_eq, accessing_eq, apply_ite (State.setSt · b), hdone]
  rfl

theorem keySkip_setSt (s : State) (b : Byte) (i : Instr) (key : Byte) (want : Bool) :
    (s.setSt b).keySkip i key want = (s.keySkip i key want).setSt b := by
  rw [keySkip_eq, keySkip_eq, apply_ite (State.setSt · b), ← skipIf_setSt]
  rfl

theorem awaitKey_setSt (s : State) (b : Byte) (choice : Nat) (x : Reg) :
    (s.setSt b).awaitKey choice x = (s.awaitKey choice x).setSt b := by
  have hkeys : (s.setSt b).pressedKeys = s.pressedKeys := rfl
  rw [State.awaitKey, State.awaitKey, hkeys]
  cases s.pressedKeys with
  | nil => rfl
  | cons k ks => rfl

/-- An instruction other than `LD ST, Vx` does from a state with another ST what it does from the state itself, and leaves
that ST (R298). -/
theorem exec_setSt {i : Instr} (hi : ∀ x, i ≠ .ldStVx x) (s : State) (b : Byte) :
    ∃ t, exec i s = .next t ∧ exec i (s.setSt b) = .next (t.setSt b) := by
  cases i with
  | ldStVx x => exact absurd rfl (hi x)
  | ret =>
    by_cases hempty : s.stack = []
    · exact ⟨_, exec_ret_of_nil hempty, exec_ret_of_nil (s := s.setSt b) hempty⟩
    · exact ⟨_, exec_ret_of_ne_nil hempty, exec_ret_of_ne_nil (s := s.setSt b) hempty⟩
  | call nnn =>
    by_cases hlt : s.stack.length < Config.stackDepth
    · exact ⟨_, exec_call_of_lt hlt, exec_call_of_lt (s := s.setSt b) hlt⟩
    · exact ⟨_, exec_call_of_full (Nat.not_lt.1 hlt), exec_call_of_full (s := s.setSt b) (Nat.not_lt.1 hlt)⟩
  | drw x y n =>
    by_cases hzero : n.toNat = 0
    · exact ⟨_, exec_drw_zero hzero, exec_drw_zero hzero⟩
    · exact ⟨_, exec_drw_of_ne_zero hzero,
        (exec_drw_of_ne_zero hzero).trans (congrArg Host.Outcome.next (accessing_setSt (by rfl) _ _))⟩
  | seByte x nn => exact ⟨_, rfl, congrArg Host.Outcome.next (skipIf_setSt s b _)⟩
  | sneByte x nn => exact ⟨_, rfl, congrArg Host.Outcome.next (skipIf_setSt s b _)⟩
  | seReg x y => exact ⟨_, rfl, congrArg Host.Outcome.next (skipIf_setSt s b _)⟩
  | sneReg x y => exact ⟨_, rfl, congrArg Host.Outcome.next (skipIf_setSt s b _)⟩
  | skp x => exact ⟨_, rfl, congrArg Host.Outcome.next (keySkip_setSt s b _ _ true)⟩
  | sknp x => exact ⟨_, rfl, congrArg Host.Outcome.next (keySkip_setSt s b _ _ false)⟩
  | ldVxK x => exact ⟨_, rfl, congrArg Host.Outcome.next (awaitKey_setSt s b _ x)⟩
  | ldB x => exact ⟨_, rfl, congrArg Host.Outcome.next (accessing_setSt (by rfl) _ _)⟩
  | storeRegs x => exact ⟨_, rfl, congrArg Host.Outcome.next (accessing_setSt (by rfl) _ _)⟩
  | loadRegs x => exact ⟨_, rfl, congrArg Host.Outcome.next (accessing_setSt (by rfl) _ _)⟩
  | _ => exact ⟨_, rfl, rfl⟩

/-- Settles O48: ST takes V[X] and the ticks count down from there; every other instruction carries ST through unread, and
`LD ST, Vx` overwrites it. -/
theorem soundTimerIsWrittenAndNeverRead : Obligations.SoundTimerIsWrittenAndNeverRead := by
  constructor
  · intro x s
    exact ⟨_, rfl, ((Effect.refl _ s).advance.setSt _ rfl).normal, rfl, rfl, fun n => (iterate_tick_toNat n _).2⟩
  · intro i s t b h
    by_cases hi : ∃ x, i = .ldStVx x
    · rw [if_pos hi]
      obtain ⟨x, rfl⟩ := hi
      cases h
      rfl
    · rw [if_neg hi]
      obtain ⟨t', ht', hother⟩ := exec_setSt (not_exists.1 hi) s b
      rw [ht'] at h
      cases h
      exact hother

end Sys2Proof.Machine
end

section
/-! PROOFS. The timer engine and the block's own faults (spec/60_exceptions.md R321 to R325, R345 to R347). In a run a timer
changes by ticks and by its own write instruction alone, so fair ticks take it to 0 once it is no longer written. -/

namespace Sys2Proof.Machine

/-- Settles O51: by the instruction and, for a draw, by its height. -/
theorem everyOwnFaultIsTaken : Obligations.EveryOwnFaultIsTaken := by
  intro i s c info hown
  exact exec_of_ownFault hown

/-- Settles O14: the turn is taken, and then the timers tick. -/
theorem tickDecrementsEachTimer : Obligations.TickDecrementsEachTimer := by
  intro s hturn
  obtain ⟨hdt, hst⟩ := tick_toNat s.takeTurn
  exact ⟨_, step_of_timer hturn, hdt, hst, rfl⟩

/-- Any number of ticks writes the two timers only. -/
theorem iterate_tick_frame (n : Nat) (s : State) :
    State.tick^[n] s = { s with dt := (State.tick^[n] s).dt, st := (State.tick^[n] s).st } := by
  induction n with
  | zero => rfl
  | succ n ih =>
    rw [Function.iterate_succ_apply', ih]
    rfl

/-- Settles O15: the countdown and the frame, each by induction on the number of ticks. -/
theorem ticksCountDownToZero : Obligations.TicksCountDownToZero := by
  intro n s
  obtain ⟨hdt, hst⟩ := iterate_tick_toNat n s
  exact ⟨hdt, hst, iterate_tick_frame n s⟩

/-! The core's turn in a run leaves a timer it does not write as it was. -/

/-- What an iteration without a quit may write: what its instruction may, and nothing where the fetch or the decoding
faults (40_cycle.md R136). -/
def State.nextFootprint (s : State) : Footprint := s.nextInstr.elim {} (footprint s)

theorem nextFootprint_of_some {s : State} {i : Instr} (h : s.nextInstr = some i) : s.nextFootprint = footprint s i := by
  rw [State.nextFootprint, h, Option.elim_some]

theorem nextFootprint_cases (s : State) :
    s.nextFootprint = {} ∨ ∃ i, s.nextInstr = some i ∧ s.nextFootprint = footprint s i := by
  cases hi : s.nextInstr with
  | none => exact .inl (by rw [State.nextFootprint, hi, Option.elim_none])
  | some i => exact .inr ⟨i, rfl, nextFootprint_of_some hi⟩

theorem fetchExecute_keeps {s t : State} (h : fetchExecute s = .next t) : Keeps s.nextFootprint s t := by
  obtain ⟨-, rfl⟩ | ⟨w, -, -, rfl⟩ | ⟨w, i, hw, hd, hexec⟩ := fetchExecute_cases h
  · exact Keeps.faulted _ s _ _ _
  · exact Keeps.faulted _ s _ _ _
  · rw [nextFootprint_of_some (nextInstr_eq_some.2 ⟨w, hw, hd⟩)]
    exact everyInstructionKeepsItsFrame i s t hexec

/-- The poll of a given turn changes nothing that the fetch, the decoding or a footprint reads. -/
theorem nextFootprint_polled_given (s : State) (p : Poll) :
    (s.given (.core p)).takeTurn.polled.nextFootprint = s.nextFootprint := rfl

theorem step_given_core_keeps {s t : State} {p : Poll} (h : step (s.given (.core p)) = .next t) :
    Keeps s.nextFootprint (s.given (.core p)).takeTurn.polled t := by
  obtain ⟨-, ⟨-, rfl⟩ | ⟨-, hexec⟩⟩ := step_given_core h
  · exact { Keeps.refl _ _ with }
  · rw [← nextFootprint_polled_given s p]
    exact fetchExecute_keeps hexec

/-- Only `LD DT, Vx` writes DT (45_keys_timers.md R297). -/
theorem nextFootprint_delay {s : State} (h : ∀ x, s.nextInstr ≠ some (.ldDtVx x)) : s.nextFootprint.delay = false := by
  obtain heq | ⟨i, hi, heq⟩ := nextFootprint_cases s
  · rw [heq]
  · rw [heq]
    cases i with
    | ldDtVx x => exact absurd hi (h x)
    | _ => rfl

/-- Only `LD ST, Vx` writes ST (45_keys_timers.md R298). -/
theorem nextFootprint_sound {s : State} (h : ∀ x, s.nextInstr ≠ some (.ldStVx x)) : s.nextFootprint.sound = false := by
  obtain heq | ⟨i, hi, heq⟩ := nextFootprint_cases s
  · rw [heq]
  · rw [heq]
    cases i with
    | ldStVx x => exact absurd hi (h x)
    | _ => rfl

/-! A counter that infinitely many ticks take down, and that nothing takes up, ends at 0. -/

section
variable {count : Nat → Nat} {tick : Nat → Prop} {n : Nat} (hanti : AntitoneOn count (Set.Ici n))
  (hfair : ∀ l, ∃ m, l ≤ m ∧ tick m) (htick : ∀ m, tick m → count (m + 1) = count m - 1)
include hanti hfair htick

/-- By induction on the number of ticks waited for. -/
theorem exists_count_le_sub (ticks : Nat) : ∃ k, n ≤ k ∧ count k ≤ count n - ticks := by
  induction ticks with
  | zero => exact ⟨n, le_rfl, le_rfl⟩
  | succ ticks ih =>
    obtain ⟨k, hk, hcount⟩ := ih
    obtain ⟨m, hkm, hm⟩ := hfair k
    have hdown := htick m hm
    have hle : count m ≤ count k := hanti hk (hk.trans hkm) hkm
    exact ⟨m + 1, by omega, by omega⟩

theorem count_reaches_zero : ∃ k, n ≤ k ∧ ∀ m, k ≤ m → count m = 0 := by
  obtain ⟨k, hk, hzero⟩ := exists_count_le_sub hanti hfair htick (count n)
  rw [Nat.sub_self] at hzero
  exact ⟨k, hk, fun m hkm => Nat.le_zero.1 ((hanti hk (hk.trans hkm) hkm).trans hzero)⟩

end

/-- A timer of a weakly fair run that the core's turns leave alone from the n-th turn on reaches 0 and stays
(60_exceptions.md R346, R347). -/
theorem timer_reaches_zero {states : Nat → State} {turns : Nat → Turn} (hrun : IsRun states turns)
    (hfair : WeaklyFair turns) {n : Nat} {timer : State → Byte}
    (htick : ∀ s t, step (s.given .timer) = .next t → (timer t).toNat = (timer s).toNat - 1)
    (hcore : ∀ m, n ≤ m → ∀ p, turns m = .core p → timer (states (m + 1)) = timer (states m)) :
    ∃ k, n ≤ k ∧ ∀ m, k ≤ m → timer (states m) = 0 := by
  have hdown : ∀ m, turns m = .timer → (timer (states (m + 1))).toNat = (timer (states m)).toNat - 1 := by
    intro m hturn
    have hstep := hrun m
    rw [hturn] at hstep
    exact htick _ _ hstep
  have hanti : AntitoneOn (fun m => (timer (states m)).toNat) (Set.Ici n) := by
    refine antitoneOn_nat_Ici_of_succ_le fun m hm => ?_
    cases hturn : turns m with
    | core p => rw [hcore m hm p hturn]
    | timer => exact (hdown m hturn).trans_le (Nat.sub_le _ _)
  obtain ⟨k, hk, hzero⟩ := count_reaches_zero hanti hfair hdown
  exact ⟨k, hk, fun m hkm => BitVec.eq_of_toNat_eq (hzero m hkm)⟩

theorem step_given_timer_toNat {s t : State} (h : step (s.given .timer) = .next t) :
    t.dt.toNat = s.dt.toNat - 1 ∧ t.st.toNat = s.st.toNat - 1 := by
  rw [step_given_timer] at h
  cases h
  exact tick_toNat s

/-- The turn of the core in a run, as the frame of the instruction it starts at. -/
theorem IsRun.core_keeps {states : Nat → State} {turns : Nat → Turn} (hrun : IsRun states turns) {m : Nat} {p : Poll}
    (hturn : turns m = .core p) :
    Keeps (states m).nextFootprint ((states m).given (.core p)).takeTurn.polled (states (m + 1)) := by
  have hstep := hrun m
  rw [hturn] at hstep
  exact step_given_core_keeps hstep

/-- Settles O58: from the n-th turn on only ticks change the timer, and fairness brings as many as its value asks for. -/
theorem fairRunCountsTimersDownToZero : Obligations.FairRunCountsTimersDownToZero := by
  intro states turns hrun hfair n
  constructor
  · intro hdt
    refine timer_reaches_zero hrun hfair (fun s t h => (step_given_timer_toNat h).1) fun m hm p hturn => ?_
    exact (hrun.core_keeps hturn).delay (nextFootprint_delay fun x => hdt m hm x p hturn)
  · intro hst
    refine timer_reaches_zero hrun hfair (fun s t h => (step_given_timer_toNat h).2) fun m hm p hturn => ?_
    exact (hrun.core_keeps hturn).sound (nextFootprint_sound fun x => hst m hm x p hturn)

end Sys2Proof.Machine
end

section
/-! PROOFS. Reset (spec/70_reset_and_hazards.md R370 to R372): the reset state meets the invariant, and an image placed over
its memory leaves the font and the zeros in view elsewhere. -/

namespace Sys2Proof.Machine

/-- Settles O54: memory lists nothing, the stack is empty, nothing was presented, and the core runs with no record. -/
theorem resetMeetsInvariant : Obligations.ResetMeetsInvariant where
  memory := Memory.wf_reset
  depth := Nat.zero_le _
  returns := List.forall_mem_nil _
  pc := by decide
  status := by decide
  record := fun _ hr => nomatch hr
  shown := rfl

/-- Memory in canonical form may replace memory: nothing else in the invariant reads it. -/
theorem Inv.setMem {s : State} (h : Inv s) {m : Memory} (hm : Memory.wf m = true) : Inv (s.setMem m) :=
  { h with memory := hm }

/-- The font fills 0x50 to 0x9F of memory at reset, and all else is 0 (70_reset_and_hazards.md R371). -/
theorem Memory.unlisted_eq (a : Nat) :
    Memory.unlisted a = if 0x50 ≤ a ∧ a < 0xA0 then Config.font.getD (a - 0x50) 0 else 0 := by
  have hlen : Config.font.length = 80 := rfl
  have hbase : Config.fontBase = 0x50 := rfl
  rw [Memory.unlisted, hbase]
  by_cases hfont : a < 0xA0
  · simp only [hfont, and_true]
  · have hpast : Config.font.getD (a - 0x50) 0 = 0 := List.getD_eq_default _ _ (by omega)
    rw [hpast, ite_self, ite_self]

/-- What memory at reset reads as (70_reset_and_hazards.md R371). -/
theorem Memory.read_reset (a : Nat) :
    Memory.read State.reset.mem a = if 0x50 ≤ a ∧ a < 0xA0 then Config.font.getD (a - 0x50) 0 else 0 :=
  Memory.unlisted_eq a

theorem State.resetWith_of_le {bytes : List Byte} (h : bytes.length ≤ 3584) :
    State.resetWith (some bytes) =
      some (State.reset.setMem (Memory.writeBytes State.reset.mem Config.progBase bytes)) :=
  if_neg (Nat.not_lt.2 h)

theorem State.resetWith_of_lt {bytes : List Byte} (h : 3584 < bytes.length) : State.resetWith (some bytes) = none :=
  if_pos h

/-- Settles O56: reset writes the image as one block inside memory, so an address outside it still reads as at reset. -/
theorem resetPlacesImageVerbatim : Obligations.ResetPlacesImageVerbatim := by
  refine ⟨fun bytes hlen => ?_, fun bytes => State.resetWith_of_lt, rfl⟩
  have hinv := resetMeetsInvariant.setMem (Memory.wf_writeBytes Memory.wf_reset Config.progBase bytes)
  have hfits : Config.progBase + bytes.length ≤ Config.memSize := Nat.add_le_add_left hlen 0x200
  refine ⟨_, State.resetWith_of_le hlen, hinv, rfl, fun a _ => ?_⟩
  rw [State.setMem_mem, Memory.read_writeBytes bytes _ _ a hfits, Memory.read_reset]

end Sys2Proof.Machine
end
